-- ==== Sys2Proof/Word.lean ====
section
/-! DEFINITION. The machine's one word: an unsigned byte (10_state.md R10, R19). -/

namespace Sys2Proof

/-- A byte: a register's contents, a memory cell, an opcode, an operand (R10, R19, R50). -/
abbrev Byte := BitVec 8

end Sys2Proof
end

