-- ==== Sys2Proof/Syntax.lean ====
section
/-! DEFINITION. The instruction set: one constructor per row of the opcode table (30_encoding.md R55). -/

namespace Sys2Proof

/-- An instruction with the operand bytes it has (R50 to R54). An operand is the byte taken whole: a
register operand may be 8 to 255, which decodes and fails only when it runs (R54, R59). -/
inductive Instr where
  /-- HLT (R85). -/
  | hlt
  /-- LDI: register index `a`, immediate `b` (R90). -/
  | ldi (a b : Byte)
  /-- PRN: register index `a` (R91). -/
  | prn (a : Byte)
  /-- MUL: destination and first factor `a`, second factor `b` (R103). -/
  | mul (a b : Byte)
  /-- ADD: destination and first addend `a`, second addend `b` (R104). -/
  | add (a b : Byte)
  /-- PUSH: register index `a` (R116). -/
  | push (a : Byte)
  /-- POP: register index `a` (R117). -/
  | pop (a : Byte)
  /-- CALL: register `a` holds the target (R125). -/
  | call (a : Byte)
  /-- RET (R126). -/
  | ret
  deriving DecidableEq, Repr

end Sys2Proof
end

