-- ==== Sys2Proof/Decode.lean ====
section
/-! DEFINITION. The decoder and, after it, the encoder, both from the opcode map of 30_encoding.md R55. -/

namespace Sys2Proof

/-- HLT 0b00000001 (R55). -/
def opHlt : Byte := 0x01
/-- LDI 0b10000010 (R55). -/
def opLdi : Byte := 0x82
/-- PRN 0b01000111 (R55). -/
def opPrn : Byte := 0x47
/-- MUL 0b10100010 (R55). -/
def opMul : Byte := 0xA2
/-- ADD 0b10100000 (R55). -/
def opAdd : Byte := 0xA0
/-- PUSH 0b01000101 (R55). -/
def opPush : Byte := 0x45
/-- POP 0b01000110 (R55). -/
def opPop : Byte := 0x46
/-- CALL 0b01010000 (R55). -/
def opCall : Byte := 0x50
/-- RET 0b00010001 (R55). -/
def opRet : Byte := 0x11

/-- The three formats, named after the number of operand bytes (R50). -/
inductive Format where
  /-- Opcode alone (R51). -/
  | f0
  /-- Opcode, A (R52). -/
  | f1
  /-- Opcode, A, B (R53). -/
  | f2
  deriving DecidableEq, Repr

/-- The length in bytes of an instruction of a format (R50). -/
def Format.length : Format → Nat
  | .f0 => 1
  | .f1 => 2
  | .f2 => 3

/-- One row of the opcode map: the byte that selects it, its format, and the instruction it stands for
given the two pre-read operand bytes (R54, R55). -/
structure OpcodeRow where
  opcode : Byte
  format : Format
  build  : Byte → Byte → Instr

/-- The complete instruction set, in the order of the spec's table (R55). An F1 row ignores B and an F0
row ignores A and B (R51, R52). -/
def opcodeTable : List OpcodeRow :=
  [ { opcode := opHlt,  format := .f0, build := fun _ _ => .hlt },
    { opcode := opLdi,  format := .f2, build := fun a b => .ldi a b },
    { opcode := opPrn,  format := .f1, build := fun a _ => .prn a },
    { opcode := opMul,  format := .f2, build := fun a b => .mul a b },
    { opcode := opAdd,  format := .f2, build := fun a b => .add a b },
    { opcode := opPush, format := .f1, build := fun a _ => .push a },
    { opcode := opPop,  format := .f1, build := fun a _ => .pop a },
    { opcode := opCall, format := .f1, build := fun a _ => .call a },
    { opcode := opRet,  format := .f0, build := fun _ _ => .ret } ]

/-- Why a decode is rejected: the one reason the spec knows (R57). -/
inductive DecodeError where
  /-- `ir` is none of the nine opcode bytes (R57, R58). -/
  | illegalOpcode (ir : Byte)
  deriving DecidableEq, Repr

/-- The Decoder and the Dispatcher's lookup: the opcode byte alone selects the row, by equality of all
eight bits (R55, R56), and the operand bytes are taken whole (R54). -/
def decode (ir a b : Byte) : Except DecodeError Instr :=
  match opcodeTable.find? (fun row => row.opcode == ir) with
  | some row => .ok (row.build a b)
  | none => .error (.illegalOpcode ir)

/-- The opcode byte of an instruction (R55). -/
def Instr.opcode : Instr → Byte
  | .hlt => opHlt
  | .ldi _ _ => opLdi
  | .prn _ => opPrn
  | .mul _ _ => opMul
  | .add _ _ => opAdd
  | .push _ => opPush
  | .pop _ => opPop
  | .call _ => opCall
  | .ret => opRet

/-- The format of an instruction (R50). -/
def Instr.format : Instr → Format
  | .hlt | .ret => .f0
  | .prn _ | .push _ | .pop _ | .call _ => .f1
  | .ldi _ _ | .mul _ _ | .add _ _ => .f2

/-- The bytes of an instruction, at ascending addresses (R50 to R53, R60). -/
def encode : Instr → List Byte
  | .hlt => [opHlt]
  | .ldi a b => [opLdi, a, b]
  | .prn a => [opPrn, a]
  | .mul a b => [opMul, a, b]
  | .add a b => [opAdd, a, b]
  | .push a => [opPush, a]
  | .pop a => [opPop, a]
  | .call a => [opCall, a]
  | .ret => [opRet]

/-- Byte `k` of an instruction that the opcode table writes as the number `w` of `nbits` bits: bit 0 is
the least significant bit of the first byte, and every bit above `nbits` is 0 (log 20). -/
def tableByte (nbits w k : Nat) : Byte := BitVec.ofNat 8 ((w % 2 ^ nbits) >>> (8 * k))

/-- What the decoder reads from a table word: its first three bytes, as a fetch would give them. -/
def decodeTableWord (nbits w : Nat) : Option Instr :=
  match decode (tableByte nbits w 0) (tableByte nbits w 1) (tableByte nbits w 2) with
  | .ok i => some i
  | .error _ => none

end Sys2Proof
end

