-- ==== Sys2Proof/Config.lean ====
section
/-! DEFINITION. The parameters of this hardware (00_scope.md R5): fixed numbers, not state (10_state.md R24). -/

namespace Sys2Proof.Config

/-- `MEM_SIZE`: addresses are 0 to `memSize - 1` (R5, R19; the spec's decision D2, log 6). -/
abbrev memSize : Nat := 256

/-- `NUM_REGS`: register indices are 0 to 7 (R5, R10). -/
abbrev numRegs : Nat := 8

/-- `SP_INIT`: the reset value of `sp` and of register `spSeedReg` (R5, R23). -/
abbrev spInit : Nat := 0xF4

/-- `LOAD_BASE`: the address of the first loaded byte (R5, R174). -/
abbrev loadBase : Nat := 0

/-- `PC_RESET` (R5, R23, R172; the spec's decision D4, log 4). -/
abbrev pcReset : Nat := 0

/-- `GPR_RESET`: the reset value of registers 0 to 6 (R5, R23; the spec's decision D5, log 4). -/
abbrev gprReset : Byte := 0

/-- The reset value of every memory cell, "zero-filled" (R19, R23), and so what an address reads as
that the memory list does not hold. -/
abbrev cellReset : Byte := 0

end Sys2Proof.Config
end

