-- ==== Sys2Proof/Machine/State.lean ====
section
/-! DEFINITION. The whole state of the Machine (10_state.md R22) as plain data, the error report, the
reasons `step` can stop, and the state after reset (R23). -/

namespace Sys2Proof.Machine

/-- The memory: (address, byte) pairs in one canonical form, addresses strictly rising and no entry
equal to `Config.cellReset`, which an unlisted address reads as (R19, log 21). -/
abbrev Memory := List Host.Cell

/-- The status; the running flag is true exactly in `running` (R17). -/
inductive Status where
  /-- Constructed; the loop has not started. -/
  | idle
  /-- The loop executes one cycle after another. -/
  | running
  /-- HLT was executed; final until reset. -/
  | halted
  /-- An error stopped the run; final until reset. -/
  | faulted
  deriving DecidableEq, Repr

/-- The two error classes a running Machine can raise (R18, R140). -/
inductive ErrorKind where
  /-- A memory address or register index outside its bound (R141). -/
  | outOfRangeAddress
  /-- An opcode byte that is not in the table (R142). -/
  | illegalInstruction
  deriving DecidableEq, Repr

/-- The space whose bound was violated (R18). -/
inductive Space where
  /-- Memory, indices 0 to 255. -/
  | mem
  /-- The register file, indices 0 to 7. -/
  | reg
  deriving DecidableEq, Repr

/-- The error report: the five fields of R18 and nothing else (R146; the spec's decision D9, log 10). -/
structure ErrorReport where
  /-- The error class. -/
  kind   : ErrorKind
  /-- The value of `pc` at the start of the failing cycle. -/
  pc     : Nat
  /-- The opcode byte read at `pc`, or none if that read itself failed. -/
  opcode : Option Byte
  /-- The space whose bound was violated; none for IllegalInstruction. -/
  space  : Option Space
  /-- The offending address or index, a signed integer; none for IllegalInstruction. -/
  index  : Option Int
  deriving DecidableEq, Repr

/-- The state of the Machine, complete (R22). -/
structure State where
  /-- `x[0]` to `x[7]` (R10). -/
  regs   : Vector Byte Config.numRegs
  /-- The program counter, a non-negative integer that never wraps (R14; D3, log 7). -/
  pc     : Nat
  /-- The stack pointer, a non-negative integer that never wraps, separate from register 7 (R11, R16). -/
  sp     : Nat
  /-- The memory (R19). -/
  mem    : Memory
  /-- The status (R17). -/
  status : Status
  /-- The error report, none until an error stops the run (R18). -/
  fault  : Option ErrorReport
  /-- What PRN has emitted since reset, oldest first (R20). -/
  out    : List Byte
  deriving DecidableEq, Repr

/-- The reasons `exec` can stop without a next state. The Machine's own errors are NOT here: raising
one is a next state, with status Faulted and the report recorded (R150). -/
inductive Fault where
  /-- Raised by the meaning of CALL alone, when it would store a return address `pc + 2` that is no byte,
  which the spec gives no effect ("no truncation on store is ever needed", R33). Safe: no cycle raises it,
  since CALL executes only after the fetch read `pc + 2` (R33, R125; log 14). -/
  | returnAddressNotAByte
  deriving DecidableEq, Repr

/-- The reasons `exec` can refuse an instruction. -/
inductive Refusal where
  /-- An instruction that has no meaning in the model yet, named as the opcode table names it. Safe. No
  arm of `exec` answers with it: all nine instructions have their meaning. -/
  | notModelled (mnemonic : String)
  deriving DecidableEq, Repr

/-- The Machine right after construction and before any load (R23, R170, R171; log 4). -/
def State.reset : State where
  regs   := #v[Config.gprReset, Config.gprReset, Config.gprReset, Config.gprReset,
              Config.gprReset, Config.gprReset, Config.gprReset, BitVec.ofNat 8 Config.spInit]
  pc     := Config.pcReset
  sp     := Config.spInit
  mem    := []
  status := .idle
  fault  := none
  out    := []

end Sys2Proof.Machine
end

