-- ==== Sys2Proof/Machine/Flags.lean ====
section
/-! DEFINITION. The one flag of the machine. There are no condition codes and no carry, zero, sign or
overflow flag (10_state.md R26); the running flag is part of the status (R17). -/

namespace Sys2Proof.Machine

/-- The running flag: `running = (status = Running)` (R17). -/
def State.isRunning (s : State) : Bool := s.status == .running

/-- `running <- false` as HLT writes it: status Halted (R17, R85). -/
def State.halt (s : State) : State := { s with status := .halted }

end Sys2Proof.Machine
end

