-- ==== Sys2Proof/Machine/Memory.lean ====
section
/-! DEFINITION. Reading and writing one cell of the memory list, and its canonical form (20_memory.md
R32, R33, R37; log 21). The bound check stands in Machine/Ops.lean. -/

namespace Sys2Proof.Machine

/-- The byte at an address: the listed one, or what an unlisted address reads as (R23). -/
def Memory.read (m : Memory) (a : Nat) : Byte :=
  match m with
  | [] => Config.cellReset
  | c :: m => if c.1 = a then c.2 else Memory.read m a

/-- The list without any entry for an address. -/
def Memory.erase (m : Memory) (a : Nat) : Memory := m.filter (fun c => c.1 != a)

/-- Puts a cell in front of the first listed address above its own. -/
def Memory.insert (m : Memory) (a : Nat) (v : Byte) : Memory :=
  match m with
  | [] => [(a, v)]
  | c :: m => if a < c.1 then (a, v) :: c :: m else c :: Memory.insert m a v

/-- Changes one cell (R33) and keeps the canonical form: writing what an unlisted address reads as
removes the entry. -/
def Memory.write (m : Memory) (a : Nat) (v : Byte) : Memory :=
  if v = Config.cellReset then m.erase a else (m.erase a).insert a v

/-- Writes a sequence of bytes at ascending addresses (R174). -/
def Memory.place (m : Memory) (a : Nat) (bytes : List Byte) : Memory :=
  match bytes with
  | [] => m
  | v :: bytes => Memory.place (m.write a v) (a + 1) bytes

/-- The canonical form: addresses strictly rising, no entry equal to what an unlisted address reads as. -/
abbrev Memory.wf (m : Memory) : Prop :=
  m.Pairwise (fun c d => c.1 < d.1) ∧ ∀ c ∈ m, c.2 ≠ Config.cellReset

/-- Every listed address is a cell the memory has (R19, R30). -/
abbrev Memory.inRange (m : Memory) : Prop := ∀ c ∈ m, c.1 < Config.memSize

end Sys2Proof.Machine
end

