-- ==== Sys2Proof/Machine/Ops.lean ====
section
/-! DEFINITION. The shared operations every meaning is made of: the record updates, the bound-checked
accesses (10_state.md R12; 20_memory.md R32, R33), raising an error (60_exceptions.md R146, R150, R151),
the stack discipline (44_stack.md R115). The spec has no return from an error (60_exceptions.md R152),
so no operation for one stands here. -/

namespace Sys2Proof.Machine

/-- What a step or a meaning answers. -/
abbrev Result := Host.Outcome State Fault Refusal

/-- `pc <- target` (00_scope.md section 5). -/
def State.setPc (s : State) (target : Nat) : State := { s with pc := target }

/-- `sp <- v` (00_scope.md section 5). -/
def State.setSp (s : State) (v : Nat) : State := { s with sp := v }

/-- The memory after a store. -/
def State.setMem (s : State) (m : Memory) : State := { s with mem := m }

/-- Register `r` holds `v` (10_state.md R12), its index already checked. -/
def State.setReg (s : State) (r : Fin Config.numRegs) (v : Byte) : State :=
  { s with regs := s.regs.set r v }

/-- `Emit(v)`: append a byte to the output channel (10_state.md R20). -/
def State.emit (s : State) (v : Byte) : State := { s with out := s.out ++ [v] }

/-- An error being raised, before its report is written: the class with the fields of R18 it determines. -/
inductive Cause where
  /-- OutOfRangeAddress(space, index) (60_exceptions.md R141). -/
  | outOfRange (space : Space) (index : Int)
  /-- IllegalInstruction (60_exceptions.md R142). -/
  | illegal
  deriving DecidableEq, Repr

/-- The report of an error raised by the cycle that began at `pc` and read `opcode` there (10_state.md
R18; 60_exceptions.md R146). -/
def Cause.report (e : Cause) (pc : Nat) (opcode : Option Byte) : ErrorReport :=
  match e with
  | .outOfRange space index =>
    { kind := .outOfRangeAddress, pc := pc, opcode := opcode, space := some space, index := some index }
  | .illegal =>
    { kind := .illegalInstruction, pc := pc, opcode := opcode, space := none, index := none }

/-- TAKING AN ERROR, the machine's only exception (60_exceptions.md R150): the status becomes Faulted and
the report is recorded. Control goes nowhere, and memory, registers, `pc`, `sp` and the output stay
exactly as they were (R151; the spec's decision D8, log 8). -/
def State.raise (s : State) (opcode : Option Byte) (e : Cause) : State :=
  { s with status := .faulted, fault := some (e.report s.pc opcode) }

/-- The checks-then-effects shape of every handler (60_exceptions.md R151): go on with the value of a
check that passed, or raise its error from the state at the start of the cycle. -/
def State.orRaise {α : Type} (s : State) (opcode : Byte) (check : Except Cause α) (go : α → Result) : Result :=
  match check with
  | .error e => .next (s.raise (some opcode) e)
  | .ok v => go v

/-- The bound check of a register index: an operand byte of 8 or more is an error and is not masked to
three bits (10_state.md R12). -/
def checkReg (i : Byte) : Except Cause (Fin Config.numRegs) :=
  if h : i.toNat < Config.numRegs then .ok ⟨i.toNat, h⟩ else .error (.outOfRange .reg i.toNat)

/-- The bound check of a memory address, a signed integer that is never wrapped: an address below 0 or at
or above `MEM_SIZE` is an error (20_memory.md R32 to R34). -/
def checkMem (addr : Int) : Except Cause Nat :=
  match addr with
  | .ofNat a => if a < Config.memSize then .ok a else .error (.outOfRange .mem addr)
  | .negSucc _ => .error (.outOfRange .mem addr)

/-- `x[i]` (10_state.md R12). -/
def State.readReg (s : State) (i : Byte) : Except Cause Byte :=
  (checkReg i).map fun r => s.regs[r]

/-- `x[i] <- v` (10_state.md R12). -/
def State.writeReg (s : State) (i : Byte) (v : Byte) : Except Cause State :=
  (checkReg i).map fun r => s.setReg r v

/-- `MemRead(addr, 1)` (20_memory.md R32). -/
def State.memRead (s : State) (addr : Int) : Except Cause Byte :=
  (checkMem addr).map fun a => s.mem.read a

/-- `MemWrite(addr, 1, v)` (20_memory.md R33). -/
def State.memWrite (s : State) (addr : Int) (v : Byte) : Except Cause State :=
  (checkMem addr).map fun a => s.setMem (s.mem.write a v)

/-- The address a push stores to: `sp - 1`, which is -1 when `sp = 0` (44_stack.md R115, R116). -/
def State.pushAddr (s : State) : Int := (s.sp : Int) - 1

/-- A push: write the cell below `sp`, then lower `sp` by exactly 1 (44_stack.md R115, R116). When the
write succeeds `sp` is at least 1, so the natural-number subtraction is exact. -/
def State.pushByte (s : State) (v : Byte) : Except Cause State :=
  (s.memWrite s.pushAddr v).map fun t => t.setSp (s.sp - 1)

/-- A pop: read the cell at `sp`, then raise `sp` by exactly 1; the cell keeps its value (44_stack.md
R115, R117). -/
def State.popByte (s : State) : Except Cause (Byte × State) :=
  (s.memRead s.sp).map fun v => (v, s.setSp (s.sp + 1))

end Sys2Proof.Machine
end

