-- ==== Sys2Proof/Machine/Operands.lean ====
section
/-! DEFINITION. The operand forms of the machine (30_encoding.md R54): a register index, which is
`State.readReg`, `State.writeReg` and `checkReg` of Machine/Ops.lean, LDI's 8-bit immediate, the
return address of CALL and the byte target of CALL and RET. There are no memory operands, no
displacements and no addressing modes (R54). -/

namespace Sys2Proof.Machine

/-- LDI's immediate: the operand byte as it stands (30_encoding.md R54; 42_load_print.md R90). -/
def immediate (b : Byte) : Byte := b

/-- A byte as an absolute address in `pc`: no mask, no offset, no alignment (45_subroutine.md R128). -/
def target (t : Byte) : Nat := t.toNat

/-- CALL's return address `pc + 2` as the byte it is stored as; none when it is no byte, which no cycle
meets (45_subroutine.md R125; 20_memory.md R33; log 14). -/
def State.returnAddress (s : State) : Option Byte :=
  if s.pc + 2 < 2 ^ 8 then some (BitVec.ofNat 8 (s.pc + 2)) else none

end Sys2Proof.Machine
end

