-- ==== Sys2Proof/Machine/Alu.lean ====
section
/-! DEFINITION. The ALU and the meanings of MUL and ADD (43_alu.md). -/

namespace Sys2Proof.Machine

/-- The operations the ALU supports (R100). No instruction can ask for another one, so the error of an
unsupported kind has no place here (R105; the spec's decision D19, log 15). -/
inductive AluKind where
  /-- `destRegister <- destRegister + srcRegister`. -/
  | add
  /-- `destRegister <- destRegister x srcRegister`. -/
  | mul
  deriving DecidableEq, Repr

/-- The exact result of an ALU operation reduced modulo 256; the high bits are recorded nowhere (R100,
R101; the spec's decision D1, log 5). -/
def aluResult (kind : AluKind) (a b : Byte) : Byte :=
  match kind with
  | .add => BitVec.ofNat 8 (a.toNat + b.toNat)
  | .mul => BitVec.ofNat 8 (a.toNat * b.toNat)

/-- `ALU_apply(kind, d, s)`: both sources are read, the destination's index checked first, before the
destination is written (R100; the order is the spec's decision D10, log 9). -/
def State.aluApply (s : State) (kind : AluKind) (d r : Byte) : Except Cause State :=
  match s.readReg d with
  | .error e => .error e
  | .ok a =>
    match s.readReg r with
    | .error e => .error e
    | .ok b => s.writeReg d (aluResult kind a b)

/-- MUL: `x[A] <- (x[A] * x[B]) mod 256; pc <- pc + 3` (R103). -/
def execMul (a b : Byte) (s : State) : Result :=
  s.orRaise opMul (s.aluApply .mul a b) fun t => .next (t.setPc (s.pc + 3))

/-- ADD: `x[A] <- (x[A] + x[B]) mod 256; pc <- pc + 3` (R104). -/
def execAdd (a b : Byte) (s : State) : Result :=
  s.orRaise opAdd (s.aluApply .add a b) fun t => .next (t.setPc (s.pc + 3))

end Sys2Proof.Machine
end

