-- ==== Sys2Proof/Machine/Halt.lean ====
section
/-! DEFINITION. The meaning of HLT (41_halt.md). -/

namespace Sys2Proof.Machine

/-- HLT: `running <- false`; `pc` is not advanced (R85). -/
def execHlt (s : State) : Result := .next s.halt

end Sys2Proof.Machine
end

