-- ==== Sys2Proof/Machine/LoadPrint.lean ====
section
/-! DEFINITION. The meanings of LDI and PRN, and the text form of the output (42_load_print.md). -/

namespace Sys2Proof.Machine

/-- LDI: `x[A] <- B; pc <- pc + 3` (R90). -/
def execLdi (a b : Byte) (s : State) : Result :=
  s.orRaise opLdi (s.writeReg a (immediate b)) fun t => .next (t.setPc (s.pc + 3))

/-- PRN: `v <- x[A]; Emit(v); pc <- pc + 2` (R91). -/
def execPrn (a : Byte) (s : State) : Result :=
  s.orRaise opPrn (s.readReg a) fun v => .next ((s.emit v).setPc (s.pc + 2))

/-- An emitted value as text: its shortest decimal numeral and one line feed (R92; the spec's decision
D14, log 16). The machine itself only keeps the bytes. -/
def renderLine (v : Byte) : String := toString v.toNat ++ "\n"

/-- A list of emitted values as text, one value a line, oldest first (R92). -/
def renderLines : List Byte → String
  | [] => ""
  | v :: vs => renderLine v ++ renderLines vs

/-- The output channel as text (R92). -/
def State.outText (s : State) : String := renderLines s.out

end Sys2Proof.Machine
end

