-- ==== Sys2Proof/Machine/Stack.lean ====
section
/-! DEFINITION. The meanings of PUSH and POP (44_stack.md). -/

namespace Sys2Proof.Machine

/-- PUSH: `v <- x[A]; MemWrite(sp - 1, 1, v); sp <- sp - 1; pc <- pc + 2` (R116). -/
def execPush (a : Byte) (s : State) : Result :=
  s.orRaise opPush (s.readReg a) fun v =>
    s.orRaise opPush (s.pushByte v) fun t => .next (t.setPc (s.pc + 2))

/-- POP: check A, `v <- MemRead(sp, 1); x[A] <- v; sp <- sp + 1; pc <- pc + 2` (R117). -/
def execPop (a : Byte) (s : State) : Result :=
  s.orRaise opPop (checkReg a) fun r =>
    s.orRaise opPop s.popByte fun p => .next ((p.2.setReg r p.1).setPc (s.pc + 2))

end Sys2Proof.Machine
end

