-- ==== Sys2Proof/Machine/Subroutine.lean ====
section
/-! DEFINITION. The meanings of CALL and RET (45_subroutine.md). -/

namespace Sys2Proof.Machine

/-- CALL: `t <- x[A]; MemWrite(sp - 1, 1, pc + 2); sp <- sp - 1; pc <- t` (R125). The target is not
checked here. The two register and stack checks come first; a `pc + 2` that is no byte, which no cycle
dispatches with, has no effect in the spec and faults (log 14). -/
def execCall (a : Byte) (s : State) : Result :=
  s.orRaise opCall (s.readReg a) fun v =>
    s.orRaise opCall (checkMem s.pushAddr) fun _ =>
      match s.returnAddress with
      | none => .fault .returnAddressNotAByte
      | some back => s.orRaise opCall (s.pushByte back) fun t => .next (t.setPc (target v))

/-- RET: `t <- MemRead(sp, 1); sp <- sp + 1; pc <- t` (R126). -/
def execRet (s : State) : Result :=
  s.orRaise opRet s.popByte fun p => .next (p.2.setPc (target p.1))

end Sys2Proof.Machine
end

