-- ==== Sys2Proof/Machine/Dispatch.lean ====
section
/-! DEFINITION. The Dispatcher: a fixed mapping from instruction to handler (40_cycle.md R72, R73; 10_state.md R24). -/

namespace Sys2Proof.Machine

/-- The handler of an instruction, run on the state at the start of the cycle (R73). -/
def exec (i : Instr) (s : State) : Host.Outcome State Fault Refusal :=
  match i with
  | .hlt => Sys2Proof.Machine.execHlt s
  | .ldi a b => Sys2Proof.Machine.execLdi a b s
  | .prn a => Sys2Proof.Machine.execPrn a s
  | .mul a b => Sys2Proof.Machine.execMul a b s
  | .add a b => Sys2Proof.Machine.execAdd a b s
  | .push a => Sys2Proof.Machine.execPush a s
  | .pop a => Sys2Proof.Machine.execPop a s
  | .call a => Sys2Proof.Machine.execCall a s
  | .ret => Sys2Proof.Machine.execRet s

end Sys2Proof.Machine
end

