-- ==== Sys2Proof/Machine/Fetch.lean ====
section
/-! DEFINITION. Fetching and decoding at `pc` (40_cycle.md R71, R72), and where an instruction must be
placed to be fetched next. -/

namespace Sys2Proof.Machine

/-- An error raised before any handler runs: the report's opcode field, which is none when the opcode
read itself failed, and the error (40_cycle.md R71). -/
abbrev FetchError := Option Byte × Cause

/-- The three unconditional reads, in the order `pc`, `pc + 1`, `pc + 2`; the first that fails determines
the error (40_cycle.md R71). -/
def State.fetch (s : State) : Except FetchError (Byte × Byte × Byte) :=
  match s.memRead s.pc with
  | .error e => .error (none, e)
  | .ok ir =>
    match s.memRead (s.pc + 1) with
    | .error e => .error (some ir, e)
    | .ok a =>
      match s.memRead (s.pc + 2) with
      | .error e => .error (some ir, e)
      | .ok b => .ok (ir, a, b)

/-- Fetch, then the dispatch lookup: a byte that is no opcode raises IllegalInstruction, after all three
reads have succeeded (40_cycle.md R72; 60_exceptions.md R142). -/
def State.fetchInstr (s : State) : Except FetchError Instr :=
  match s.fetch with
  | .error e => .error e
  | .ok (ir, a, b) =>
    match decode ir a b with
    | .error (.illegalOpcode byte) => .error (some byte, .illegal)
    | .ok i => .ok i

/-- An address an instruction can be fetched from: `pc` itself, or the entry point when `pc` is too near
the top of memory for any fetch to succeed (70_reset_and_hazards.md R186; log 2). -/
def State.fetchBase (s : State) : Nat :=
  if s.pc + 2 < Config.memSize then s.pc else Config.pcReset

/-- Three bytes stored where the next fetch reads them, with the loop running (log 2). -/
def State.placeAtFetch (s : State) (bytes : List Byte) : State :=
  { s with pc := s.fetchBase, mem := s.mem.place s.fetchBase bytes, status := .running }

/-- What a cycle that cannot run leaves: while the status is Idle, Halted or Faulted no cycle is executed
and no state changes (10_state.md R17; 40_cycle.md R70; 41_halt.md R86; log 1). -/
def State.noCycle (s : State) : State := s

end Sys2Proof.Machine
end

