-- ==== Sys2Proof/Machine/Step.lean ====
section
/-! DEFINITION. One cycle of the loop as a function of the state (40_cycle.md R74). -/

namespace Sys2Proof.Machine

/-- One cycle while the status is Running: fetch, decode, dispatch, and an error of either of the first
two raised as every error is (R71 to R74). A cycle is executed only while Running (R70, log 1). -/
def step (s : State) : Host.Outcome State Fault Refusal :=
  match s.status with
  | .running =>
    match s.fetchInstr with
    | .error e => .next (s.raise e.1 e.2)
    | .ok i => exec i s
  | .idle => .next s.noCycle
  | .halted => .next s.noCycle
  | .faulted => .next s.noCycle

/-- The state with the instruction of a table word stored where the next step fetches it, and the loop
running: it stands for the load and the start that come from outside the machine (log 2). -/
def State.withFetchWord (s : State) (nbits w : Nat) : State :=
  s.placeAtFetch [tableByte nbits w 0, tableByte nbits w 1, tableByte nbits w 2]

end Sys2Proof.Machine
end

