-- ==== Sys2Proof/Machine/Transactions.lean ====
section
/-! DEFINITION. What the outside world can do to the Machine (70_reset_and_hazards.md R180): construct it,
load a program image, start it. They happen outside the cycles, so `step` does not issue them (log 3). -/

namespace Sys2Proof.Machine

/-- The host's and the loader's transactions (R180). -/
inductive Transaction where
  /-- Reset, which is construction (R170). -/
  | construct
  /-- Place a program image (R174). -/
  | load (bytes : List Byte)
  /-- Start the loop, the source's `run` (R177). -/
  | start
  deriving DecidableEq, Repr

/-- What the issuer of a transaction is told (the model's choice, log 13). -/
inductive Reply where
  /-- The transaction took effect. -/
  | done
  /-- The status does not allow it, and nothing changed (R177, R180; log 13). -/
  | noEffect
  /-- ProgramLoadError: the image is longer than the memory, and nothing changed (R144, R175). -/
  | programLoadError
  deriving DecidableEq, Repr

/-- Load: allowed only in Idle, at most `MEM_SIZE` bytes, placed from `LOAD_BASE`; memory alone changes
(R174, R175; the spec's decision D15, log 13). -/
def State.load (s : State) (bytes : List Byte) : State × Reply :=
  match s.status with
  | .idle =>
    if bytes.length ≤ Config.memSize then
      ({ s with mem := s.mem.place Config.loadBase bytes }, .done)
    else (s, .programLoadError)
  | .running => (s, .noEffect)
  | .halted => (s, .noEffect)
  | .faulted => (s, .noEffect)

/-- Start: has an effect only in Idle, and there changes the status alone (R177; the spec's decision D7, log
13). DESIGN CHOICE (log 23): no refused load is remembered, so a start after one sets Running on the memory as
it stands; the spec only says that none is issued then (R144, R177). -/
def State.start (s : State) : State × Reply :=
  match s.status with
  | .idle => ({ s with status := .running }, .done)
  | .running => (s, .noEffect)
  | .halted => (s, .noEffect)
  | .faulted => (s, .noEffect)

/-- The effect of a transaction. A reset is always cold and always complete: nothing survives it (R170;
the spec's decision D17). -/
def State.transact (s : State) : Transaction → State × Reply
  | .construct => (State.reset, .done)
  | .load bytes => s.load bytes
  | .start => s.start

end Sys2Proof.Machine
end

