-- ==== Sys2Proof/Safety.lean ====
section
/-! DEFINITION. The terms the statements use: the error reports and the faulted state written out as the
spec writes them, the rows of 60_exceptions.md R141, and the invariant of a run. The model's own
operations do not use these definitions. -/

namespace Sys2Proof.Machine

/-- `OutOfRangeAddress(space, index)` reported by the cycle at `pc` that read `opcode` (10_state.md R18). -/
def ErrorReport.outOfRange (pc : Nat) (opcode : Option Byte) (space : Space) (index : Int) : ErrorReport where
  kind   := .outOfRangeAddress
  pc     := pc
  opcode := opcode
  space  := some space
  index  := some index

/-- `IllegalInstruction(pc, ir)` (10_state.md R18; 60_exceptions.md R142). -/
def ErrorReport.illegal (pc : Nat) (ir : Byte) : ErrorReport where
  kind   := .illegalInstruction
  pc     := pc
  opcode := some ir
  space  := none
  index  := none

/-- The state an error leaves: status Faulted, the report recorded, nothing else changed (60_exceptions.md
R150, R151; the unchanged rest is the spec's decision D8, log 8). -/
def State.faultedWith (s : State) (r : ErrorReport) : State :=
  { s with status := .faulted, fault := some r }

/-- The nine opcode bytes (30_encoding.md R55). -/
def opcodeBytes : List Byte := [0x01, 0x82, 0x47, 0xA2, 0xA0, 0x45, 0x46, 0x50, 0x11]

/-- The opcode byte, operand A and operand B a fetch at `pc` reads (40_cycle.md R71). -/
def State.irByte (s : State) : Byte := s.mem.read s.pc
/-- Operand A of a fetch at `pc`. -/
def State.aByte (s : State) : Byte := s.mem.read (s.pc + 1)
/-- Operand B of a fetch at `pc`. -/
def State.bByte (s : State) : Byte := s.mem.read (s.pc + 2)

/-- The state with other register contents and everything else the same. -/
def State.withRegs (s : State) (regs : Vector Byte Config.numRegs) : State := { s with regs := regs }

/-- The register operands an instruction reads (10_state.md R13). -/
def regsRead : Instr → List Byte
  | .hlt => []
  | .ldi _ _ => []
  | .prn a => [a]
  | .mul a b => [a, b]
  | .add a b => [a, b]
  | .push a => [a]
  | .pop _ => []
  | .call a => [a]
  | .ret => []

/-- The register operands an instruction writes (10_state.md R13). -/
def regsWritten : Instr → List Byte
  | .hlt => []
  | .ldi a _ => [a]
  | .prn _ => []
  | .mul a _ => [a]
  | .add a _ => [a]
  | .push _ => []
  | .pop a => [a]
  | .call _ => []
  | .ret => []

/-- What the cycle at `pc` reports: the rows of the table of 60_exceptions.md R141, and R142, in the
priority of R147 (the order among the handler's own checks is the spec's decision D10, log 9). -/
inductive State.Reports (s : State) : ErrorReport → Prop where
  /-- Fetch of the opcode. -/
  | fetchOpcode (h : s.pc = 256) : s.Reports (.outOfRange 256 none .mem 256)
  /-- Fetch of operand A. -/
  | fetchOperandA (h : s.pc = 255) : s.Reports (.outOfRange 255 (some s.irByte) .mem 256)
  /-- Fetch of operand B. -/
  | fetchOperandB (h : s.pc = 254) : s.Reports (.outOfRange 254 (some s.irByte) .mem 256)
  /-- Dispatch. -/
  | illegalOpcode (h : s.pc ≤ 253) (ir : s.irByte ∉ opcodeBytes) : s.Reports (.illegal s.pc s.irByte)
  /-- LDI, PRN, MUL, ADD, PUSH, POP, CALL with A from 8 to 255. -/
  | registerA (h : s.pc ≤ 253)
      (ir : s.irByte ∈ ([0x82, 0x47, 0xA2, 0xA0, 0x45, 0x46, 0x50] : List Byte)) (a : 8 ≤ s.aByte.toNat) :
      s.Reports (.outOfRange s.pc (some s.irByte) .reg s.aByte.toNat)
  /-- MUL, ADD with A from 0 to 7 and B from 8 to 255. -/
  | registerB (h : s.pc ≤ 253) (ir : s.irByte ∈ ([0xA2, 0xA0] : List Byte))
      (a : s.aByte.toNat < 8) (b : 8 ≤ s.bByte.toNat) :
      s.Reports (.outOfRange s.pc (some s.irByte) .reg s.bByte.toNat)
  /-- PUSH, CALL with A valid and `sp = 0`. -/
  | pushAtZero (h : s.pc ≤ 253) (ir : s.irByte ∈ ([0x45, 0x50] : List Byte))
      (a : s.aByte.toNat < 8) (sp : s.sp = 0) :
      s.Reports (.outOfRange s.pc (some s.irByte) .mem (-1))
  /-- POP with A valid and `sp = 256`. -/
  | popAtTop (h : s.pc ≤ 253) (ir : s.irByte = 0x46) (a : s.aByte.toNat < 8) (sp : s.sp = 256) :
      s.Reports (.outOfRange s.pc (some s.irByte) .mem 256)
  /-- RET with `sp = 256`. -/
  | retAtTop (h : s.pc ≤ 253) (ir : s.irByte = 0x11) (sp : s.sp = 256) :
      s.Reports (.outOfRange s.pc (some s.irByte) .mem 256)

/-- The invariant of a run: what the spec says of every reachable state. -/
structure State.Inv (s : State) : Prop where
  /-- The memory list is canonical (log 21). -/
  memCanonical : s.mem.wf
  /-- Only cells 0 to 255 are listed (R19, R30). -/
  memInRange : s.mem.inRange
  /-- `pc` is 0 to 256 (R14). -/
  pcBound : s.pc ≤ 256
  /-- `sp` is 0 to 256 (R16). -/
  spBound : s.sp ≤ 256
  /-- The report is none in every state reached without an error (R18). -/
  noReport : s.status ≠ .faulted → s.fault = none
  /-- A faulted Machine holds the report of the cycle that failed, which changed nothing else (R18, R141,
  R146, R151). -/
  report : s.status = .faulted → ∃ r, s.fault = some r ∧ s.Reports r

end Sys2Proof.Machine
end

