-- ==== Sys2Proof/WellFormed.lean ====
section
/-! DEFINITION. What an instruction must satisfy to name existing registers (10_state.md R12). An
instruction that does not is still decoded and still runs: it raises OutOfRangeAddress (30_encoding.md R59). -/

namespace Sys2Proof

/-- "register indices used as operands must lie within [0, 8)" (R12). -/
def Instr.regOk (i : Byte) : Bool := i.toNat < Config.numRegs

/-- Every register operand names a register (log 19). The immediate of LDI is never checked (R59). -/
def Instr.wellFormed : Instr → Bool
  | .hlt => true
  | .ldi a _ => Instr.regOk a
  | .prn a => Instr.regOk a
  | .mul a b => Instr.regOk a && Instr.regOk b
  | .add a b => Instr.regOk a && Instr.regOk b
  | .push a => Instr.regOk a
  | .pop a => Instr.regOk a
  | .call a => Instr.regOk a
  | .ret => true

end Sys2Proof
end

