-- ==== Sys2Proof/Certificates/Slice0/Obligations.lean ====
section
/-! DEFINITION. The statements for the provers. Each names the rule of spec/ it formalises; where a clause
rests on a choice the spec marks as its own, or on the model's, the docstring says so. -/

open Sys2Proof Sys2Proof.Machine

/-! ### Encoding -/

/-- 30_encoding.md R55, row by row: the nine opcode bytes, whatever the operand bytes; a two-byte instruction
ignores B and a one-byte instruction ignores both (R51, R52). -/
def Obligations.OpcodeMapDecodesItsNineRows : Prop :=
  ∀ a b : Byte,
    decode 0b00000001 a b = .ok .hlt ∧
    decode 0b10000010 a b = .ok (.ldi a b) ∧
    decode 0b01000111 a b = .ok (.prn a) ∧
    decode 0b10100010 a b = .ok (.mul a b) ∧
    decode 0b10100000 a b = .ok (.add a b) ∧
    decode 0b01000101 a b = .ok (.push a) ∧
    decode 0b01000110 a b = .ok (.pop a) ∧
    decode 0b01010000 a b = .ok (.call a) ∧
    decode 0b00010001 a b = .ok .ret

/-- 30_encoding.md R57, R58: exactly the nine distinct bytes of R55 decode; each of the other 247 is rejected
by name, whatever the operand bytes. -/
def Obligations.DecoderRejectsExactlyTheOther247Bytes : Prop :=
  (∀ ir a b : Byte,
    ((∃ i, decode ir a b = .ok i) ↔ ir ∈ opcodeBytes) ∧
    (decode ir a b = .error (.illegalOpcode ir) ↔ ir ∉ opcodeBytes)) ∧
  opcodeBytes.Nodup ∧
  ((List.range 256).filter fun n => BitVec.ofNat 8 n ∉ opcodeBytes).length = 247

/-- 30_encoding.md R50 to R55: decoding an encoded instruction, followed by any bytes, gives it back with
every operand at every value; and what decodes has as its encoding a beginning of the bytes read. -/
def Obligations.DecodeAndEncodeAgree : Prop :=
  (∀ (i : Instr) (rest : List Byte) (ir a b : Byte) (tail : List Byte),
    encode i ++ rest = ir :: a :: b :: tail → decode ir a b = .ok i) ∧
  (∀ (ir a b : Byte) (i : Instr), decode ir a b = .ok i →
    ∃ rest, encode i ++ rest = [ir, a, b])

/-- 40_cycle.md R71, R72: when the three bytes at `pc` decode, a step of a Running machine is the meaning of
the decoded instruction on that state; the step adds nothing before or after it (R76). -/
def Obligations.StepRunsTheDecodedInstruction : Prop :=
  ∀ (s : State) (i : Instr),
    s.status = .running → s.pc + 2 < 256 →
    decode (s.mem.read s.pc) (s.mem.read (s.pc + 1)) (s.mem.read (s.pc + 2)) = .ok i →
    step s = exec i s

/-- 30_encoding.md R50 to R55, 40_cycle.md R71: whatever instruction's encoding stands in memory at `pc`,
whatever bytes follow it, a step of a Running machine runs exactly that instruction. -/
def Obligations.InstructionStoredAtPcIsTheOneThatRuns : Prop :=
  ∀ (s : State) (i : Instr),
    s.status = .running → s.pc + 2 < 256 →
    (∀ (k : Nat) (h : k < (encode i).length), s.mem.read (s.pc + k) = (encode i)[k]) →
    step s = exec i s

/-- The model's own convention (log 2): after `withFetchWord` the very next step runs the instruction of
the table word, and nothing but the status, the fetched bytes and a `pc` too high to fetch from has
changed. -/
def Obligations.PlacedTableWordRunsNext : Prop :=
  ∀ (s : State) (nbits w : Nat) (i : Instr),
    decodeTableWord nbits w = some i →
    step (s.withFetchWord nbits w) = exec i (s.withFetchWord nbits w) ∧
    (s.withFetchWord nbits w).regs = s.regs ∧ (s.withFetchWord nbits w).sp = s.sp ∧
    (s.withFetchWord nbits w).out = s.out ∧ (s.withFetchWord nbits w).fault = s.fault ∧
    (s.pc + 2 < 256 → (s.withFetchWord nbits w).pc = s.pc) ∧
    (∀ b : Nat, b < (s.withFetchWord nbits w).pc ∨ (s.withFetchWord nbits w).pc + 2 < b →
      (s.withFetchWord nbits w).mem.read b = s.mem.read b)

/-! ### Each instruction's result -/

/-- 41_halt.md R85, whole: HLT sets the running flag false and changes nothing else, `pc` not advanced; its
byte at 254 or 255 is not reached, because the fetch raises OutOfRangeAddress(Mem, 256) first. Every other
instruction, where it answers a next state, goes on running or ends in an error, and a step that ends the run
without an error is the step of an HLT. -/
def Obligations.HltHaltsWithPcOnItsOwnByte : Prop :=
  encode .hlt = [0x01] ∧
  (∀ s : State, exec .hlt s = .next { s with status := .halted }) ∧
  (∀ s : State, s.status = .running → s.mem.read s.pc = 0x01 →
    (s.pc ≤ 253 → step s = .next { s with status := .halted }) ∧
    (s.pc = 254 ∨ s.pc = 255 → ∃ t r, step s = .next t ∧ t.status = .faulted ∧ t.fault = some r ∧
      r.kind = .outOfRangeAddress ∧ r.space = some .mem ∧ r.index = some 256)) ∧
  (∀ (i : Instr) (s t : State), s.status = .running → exec i s = .next t → i ≠ .hlt →
    t.status = .running ∨ t.status = .faulted) ∧
  (∀ s t : State, s.status = .running → step s = .next t → t.status ≠ .running → t.status ≠ .faulted →
    s.pc ≤ 253 ∧ s.mem.read s.pc = 0x01 ∧ t = { s with status := .halted })

/-- 42_load_print.md R90: LDI's encoding, its effect, and its one error. That nothing changes on the error
but status and report is the spec's decision D8 (log 8). -/
def Obligations.LdiLoadsTheImmediateByte : Prop :=
  ∀ (a b : Byte) (s : State),
    encode (.ldi a b) = [0x82, a, b] ∧
    (∀ h : a.toNat < 8,
      exec (.ldi a b) s = .next { s with regs := s.regs.set a.toNat b, pc := s.pc + 3 }) ∧
    (8 ≤ a.toNat →
      exec (.ldi a b) s = .next (s.faultedWith (.outOfRange s.pc (some 0x82) .reg a.toNat)))

/-- 42_load_print.md R91: PRN's encoding, its effect, and its one error (the unchanged rest on the error is
the spec's decision D8, log 8). -/
def Obligations.PrnEmitsTheRegister : Prop :=
  ∀ (a : Byte) (s : State),
    encode (.prn a) = [0x47, a] ∧
    (∀ h : a.toNat < 8,
      exec (.prn a) s = .next { s with out := s.out ++ [s.regs[a.toNat]], pc := s.pc + 2 }) ∧
    (8 ≤ a.toNat →
      exec (.prn a) s = .next (s.faultedWith (.outOfRange s.pc (some 0x47) .reg a.toNat)))

/-- 43_alu.md R103: MUL's encoding, its effect, and its errors, A named before B (the order is the spec's
decision D10, log 9, and the unchanged rest on an error its decision D8, log 8). -/
def Obligations.MulWritesTheProductModulo256 : Prop :=
  ∀ (a b : Byte) (s : State),
    encode (.mul a b) = [0xA2, a, b] ∧
    (∀ (ha : a.toNat < 8) (hb : b.toNat < 8), ∃ p : Byte,
      p.toNat = (s.regs[a.toNat].toNat * s.regs[b.toNat].toNat) % 256 ∧
      exec (.mul a b) s = .next { s with regs := s.regs.set a.toNat p, pc := s.pc + 3 }) ∧
    (8 ≤ a.toNat →
      exec (.mul a b) s = .next (s.faultedWith (.outOfRange s.pc (some 0xA2) .reg a.toNat))) ∧
    (a.toNat < 8 → 8 ≤ b.toNat →
      exec (.mul a b) s = .next (s.faultedWith (.outOfRange s.pc (some 0xA2) .reg b.toNat)))

/-- 43_alu.md R104: ADD's encoding, its effect, and its errors, A named before B (the order is the spec's
decision D10, log 9, and the unchanged rest on an error its decision D8, log 8). -/
def Obligations.AddWritesTheSumModulo256 : Prop :=
  ∀ (a b : Byte) (s : State),
    encode (.add a b) = [0xA0, a, b] ∧
    (∀ (ha : a.toNat < 8) (hb : b.toNat < 8), ∃ r : Byte,
      r.toNat = (s.regs[a.toNat].toNat + s.regs[b.toNat].toNat) % 256 ∧
      exec (.add a b) s = .next { s with regs := s.regs.set a.toNat r, pc := s.pc + 3 }) ∧
    (8 ≤ a.toNat →
      exec (.add a b) s = .next (s.faultedWith (.outOfRange s.pc (some 0xA0) .reg a.toNat))) ∧
    (a.toNat < 8 → 8 ≤ b.toNat →
      exec (.add a b) s = .next (s.faultedWith (.outOfRange s.pc (some 0xA0) .reg b.toNat)))

/-- 44_stack.md R116: PUSH's encoding, its effect, and its errors, the register first (the order is the
spec's decision D10, log 9, and the unchanged rest on an error its decision D8, log 8). -/
def Obligations.PushStoresBelowTheStackPointer : Prop :=
  ∀ (a : Byte) (s : State),
    encode (.push a) = [0x45, a] ∧
    (∀ h : a.toNat < 8, 1 ≤ s.sp → s.sp ≤ 256 →
      exec (.push a) s =
        .next { s with mem := s.mem.write (s.sp - 1) s.regs[a.toNat], sp := s.sp - 1, pc := s.pc + 2 }) ∧
    (8 ≤ a.toNat →
      exec (.push a) s = .next (s.faultedWith (.outOfRange s.pc (some 0x45) .reg a.toNat))) ∧
    (a.toNat < 8 → s.sp = 0 ∨ 256 < s.sp →
      exec (.push a) s = .next (s.faultedWith (.outOfRange s.pc (some 0x45) .mem ((s.sp : Int) - 1))))

/-- 44_stack.md R117: POP's encoding, its effect, and its errors, the register first (the order is the
spec's decision D10, log 9, and the unchanged rest on an error its decision D8, log 8). -/
def Obligations.PopLoadsTheCellAtTheStackPointer : Prop :=
  ∀ (a : Byte) (s : State),
    encode (.pop a) = [0x46, a] ∧
    (∀ h : a.toNat < 8, s.sp < 256 →
      exec (.pop a) s =
        .next { s with regs := s.regs.set a.toNat (s.mem.read s.sp), sp := s.sp + 1, pc := s.pc + 2 }) ∧
    (8 ≤ a.toNat →
      exec (.pop a) s = .next (s.faultedWith (.outOfRange s.pc (some 0x46) .reg a.toNat))) ∧
    (a.toNat < 8 → 256 ≤ s.sp →
      exec (.pop a) s = .next (s.faultedWith (.outOfRange s.pc (some 0x46) .mem s.sp)))

/-- 45_subroutine.md R125: CALL's encoding, its effect, and its errors, the register first (the order is the
spec's decision D10, log 9, and the unchanged rest on an error its decision D8, log 8). The last clause is
the model's choice (log 14): at a `pc` no cycle dispatches with, where `pc + 2` is no byte, CALL faults by
name. -/
def Obligations.CallPushesTheReturnAddressAndJumps : Prop :=
  ∀ (a : Byte) (s : State),
    encode (.call a) = [0x50, a] ∧
    (∀ h : a.toNat < 8, 1 ≤ s.sp → s.sp ≤ 256 → s.pc + 2 ≤ 255 → ∃ back : Byte,
      back.toNat = s.pc + 2 ∧
      exec (.call a) s =
        .next { s with mem := s.mem.write (s.sp - 1) back, sp := s.sp - 1, pc := s.regs[a.toNat].toNat }) ∧
    (8 ≤ a.toNat →
      exec (.call a) s = .next (s.faultedWith (.outOfRange s.pc (some 0x50) .reg a.toNat))) ∧
    (a.toNat < 8 → s.sp = 0 ∨ 256 < s.sp →
      exec (.call a) s = .next (s.faultedWith (.outOfRange s.pc (some 0x50) .mem ((s.sp : Int) - 1)))) ∧
    (a.toNat < 8 → 1 ≤ s.sp → s.sp ≤ 256 → 255 < s.pc + 2 →
      exec (.call a) s = .fault .returnAddressNotAByte)

/-- 45_subroutine.md R126: RET's encoding, its effect, and its one error (the unchanged rest on the error is
the spec's decision D8, log 8). -/
def Obligations.RetJumpsToThePoppedByte : Prop :=
  ∀ s : State,
    encode .ret = [0x11] ∧
    (s.sp < 256 →
      exec .ret s = .next { s with sp := s.sp + 1, pc := (s.mem.read s.sp).toNat }) ∧
    (256 ≤ s.sp →
      exec .ret s = .next (s.faultedWith (.outOfRange s.pc (some 0x11) .mem s.sp)))

/-! ### Frames: what an instruction leaves unchanged -/

/-- The register-writing forms LDI, MUL and ADD store nothing, emit nothing, leave `sp` and every register
but their destination alone, and leave status and report alone unless a register operand is out of range,
when they leave the registers and `pc` alone too (R13, R90, R103, R104; the error case is decision D8). -/
def Obligations.LdiMulAddFrame : Prop :=
  ∀ (i : Instr) (a b : Byte) (s t : State),
    i = .ldi a b ∨ i = .mul a b ∨ i = .add a b → exec i s = .next t →
    (∀ addr : Nat, t.mem.read addr = s.mem.read addr) ∧ t.sp = s.sp ∧ t.out = s.out ∧
    (∀ r : Fin 8, r.val ≠ a.toNat → t.regs[r] = s.regs[r]) ∧
    (i.wellFormed = true → t.status = s.status ∧ t.fault = s.fault) ∧
    (i.wellFormed = false → t.regs = s.regs ∧ t.pc = s.pc)

/-- The storing forms PUSH and CALL leave every register and the output alone, move `sp` down by one, and
leave every byte of memory alone except the one at the address they push to; when the register operand or
that address is out of range they leave all of memory, `sp` and `pc` alone (R116, R125; the error case is
decision D8). `State.pushAddr` is the function their meanings store through. -/
def Obligations.PushCallFrame : Prop :=
  ∀ (i : Instr) (a : Byte) (s t : State),
    i = .push a ∨ i = .call a → exec i s = .next t →
    t.regs = s.regs ∧ t.out = s.out ∧
    (∀ addr : Int, s.pushAddr = addr →
      ∀ b : Nat, (b : Int) ≠ addr → t.mem.read b = s.mem.read b) ∧
    (a.toNat < 8 ∧ 1 ≤ s.sp ∧ s.sp ≤ 256 →
      t.sp + 1 = s.sp ∧ t.status = s.status ∧ t.fault = s.fault) ∧
    (¬(a.toNat < 8 ∧ 1 ≤ s.sp ∧ s.sp ≤ 256) → t.mem = s.mem ∧ t.sp = s.sp ∧ t.pc = s.pc)

/-- The popping forms POP and RET leave all of memory and the output alone, move `sp` up by one, and leave
every register alone but POP's destination; when the register operand or the address is out of range they
leave registers, `sp` and `pc` alone (R117, R126; the error case is decision D8). -/
def Obligations.PopRetFrame : Prop :=
  ∀ (i : Instr) (s t : State),
    (∃ a, i = .pop a) ∨ i = .ret → exec i s = .next t →
    (∀ addr : Nat, t.mem.read addr = s.mem.read addr) ∧ t.out = s.out ∧
    (∀ r : Fin 8, i ≠ .pop (BitVec.ofNat 8 r.val) → t.regs[r] = s.regs[r]) ∧
    (i.wellFormed = true ∧ s.sp < 256 →
      t.sp = s.sp + 1 ∧ t.status = s.status ∧ t.fault = s.fault) ∧
    (¬(i.wellFormed = true ∧ s.sp < 256) → t.regs = s.regs ∧ t.sp = s.sp ∧ t.pc = s.pc)

/-- HLT and PRN leave all of memory, every register and `sp` alone; HLT leaves `pc`, the report and the
output alone too, and PRN leaves status and report alone unless its register operand is out of range, when
it leaves the output and `pc` alone (R85, R91; the error case is decision D8). -/
def Obligations.HltPrnFrame : Prop :=
  (∀ s t : State, exec .hlt s = .next t →
    (∀ addr : Nat, t.mem.read addr = s.mem.read addr) ∧ t.regs = s.regs ∧ t.sp = s.sp ∧
    t.pc = s.pc ∧ t.fault = s.fault ∧ t.out = s.out) ∧
  (∀ (a : Byte) (s t : State), exec (.prn a) s = .next t →
    (∀ addr : Nat, t.mem.read addr = s.mem.read addr) ∧ t.regs = s.regs ∧ t.sp = s.sp ∧
    (a.toNat < 8 → t.status = s.status ∧ t.fault = s.fault) ∧
    (8 ≤ a.toNat → t.out = s.out ∧ t.pc = s.pc))

/-! ### Rules over all instructions -/

/-- 10_state.md R15: the next `pc` of each instruction, unchanged where it raises an error (the spec's decision
D8, log 8); and a running `pc` that is not on a valid opcode byte raises. -/
def Obligations.EachHandlerSetsTheNextPc : Prop :=
  (∀ (i : Instr) (s t : State), s.status = .running → exec i s = .next t →
    (t.status = .faulted → t.pc = s.pc) ∧
    (t.status ≠ .faulted →
      match i with
      | .hlt => t.pc = s.pc
      | .ldi _ _ => t.pc = s.pc + 3
      | .prn _ => t.pc = s.pc + 2
      | .mul _ _ => t.pc = s.pc + 3
      | .add _ _ => t.pc = s.pc + 3
      | .push _ => t.pc = s.pc + 2
      | .pop _ => t.pc = s.pc + 2
      | .call a => ∃ h : a.toNat < 8, t.pc = (s.regs[a.toNat]).toNat
      | .ret => t.pc = (s.mem.read s.sp).toNat)) ∧
  (∀ s : State, s.status = .running → 253 < s.pc ∨ s.mem.read s.pc ∉ opcodeBytes →
    ∃ t, step s = .next t ∧ t.status = .faulted)

/-- 30_encoding.md R50, R65: an instruction that continues sequentially leaves `pc` on the byte after its own
encoding. -/
def Obligations.SequentialInstructionAdvancesByItsLength : Prop :=
  ∀ (i : Instr) (s t : State), s.status = .running → exec i s = .next t → t.status = .running →
    i ≠ .ret → (∀ a, i ≠ .call a) → t.pc = s.pc + (encode i).length

/-- 10_state.md R13: an instruction writes no register but those its row names, its whole effect depends on no
register but those its row names, and the fetch reads no register. A step of a Running machine writes no
register but those the row of the instruction it decodes names, and one that decodes no instruction leaves
registers, `pc` and `sp` alone (the error it raises is taken by the spec's decision D8, log 8). Not said here:
R13's "only code that mutates the running flag", since an error of the fetch clears that flag too (R17, R150). -/
def Obligations.RegistersReadAndWrittenByEachInstruction : Prop :=
  (∀ (i : Instr) (s t : State), s.status = .running → exec i s = .next t →
    (∀ r : Fin 8, (∀ w ∈ regsWritten i, w.toNat ≠ r.val) → t.regs[r] = s.regs[r]) ∧
    (∀ rs : Vector Byte 8, (∀ r : Fin 8, (∃ w ∈ regsRead i, w.toNat = r.val) → rs[r] = s.regs[r]) →
      ∃ u, exec i (s.withRegs rs) = .next u ∧ u.withRegs t.regs = t ∧
        (t.status ≠ .faulted →
          ∀ r : Fin 8, (∃ w ∈ regsWritten i, w.toNat = r.val) → u.regs[r] = t.regs[r]))) ∧
  (∀ (s : State) (rs : Vector Byte 8), (s.withRegs rs).fetchInstr = s.fetchInstr) ∧
  (∀ s t : State, s.status = .running → step s = .next t →
    (∀ i : Instr, s.fetchInstr = .ok i →
      ∀ r : Fin 8, (∀ w ∈ regsWritten i, w.toNat ≠ r.val) → t.regs[r] = s.regs[r]) ∧
    ((∀ i : Instr, s.fetchInstr ≠ .ok i) → t.regs = s.regs ∧ t.pc = s.pc ∧ t.sp = s.sp))

/-- 10_state.md R11, whole: register 7 holds 0xF4 at reset and is ordinary afterwards; no register is
hardwired; a write to register 7 moves `sp` no more than a write to another register does, and no
instruction changes register 7 without naming it; what `sp` becomes does not depend on register 7; PUSH,
POP, CALL and RET, where they raise no error, do change `sp`. -/
def Obligations.RegisterSevenIsNotTheStackPointer : Prop :=
  State.reset.regs[7] = 0xF4 ∧
  (∀ (r : Fin 8) (v : Byte) (s : State), ∃ t, exec (.ldi (BitVec.ofNat 8 r.val) v) s = .next t ∧
    t.regs[r] = v ∧ t.sp = s.sp) ∧
  (∀ (i : Instr) (s t : State), exec i s = .next t → 7 ∉ regsWritten i → t.regs[7] = s.regs[7]) ∧
  (∀ (b : Byte) (s t : State),
    exec (.ldi 7 b) s = .next t ∨ exec (.add 7 b) s = .next t ∨ exec (.mul 7 b) s = .next t → t.sp = s.sp) ∧
  (∀ s : State, s.sp < 256 → ∃ t, exec (.pop 7) s = .next t ∧ t.regs[7] = s.mem.read s.sp ∧ t.sp = s.sp + 1) ∧
  (∀ (i : Instr) (s t : State) (v : Byte), exec i s = .next t →
    ∃ u, exec i (s.withRegs (s.regs.set 7 v)) = .next u ∧ u.sp = t.sp) ∧
  (∀ (i : Instr) (a : Byte) (s t : State), i = .push a ∨ i = .pop a ∨ i = .call a ∨ i = .ret →
    s.status = .running → exec i s = .next t → t.status = .running → t.sp ≠ s.sp)

/-- 20_memory.md R31, 90_conflicts.md C6: a step changes a byte of memory only when it runs PUSH or CALL,
and then only the byte at `sp - 1`. -/
def Obligations.OnlyPushAndCallWriteMemory : Prop :=
  ∀ (s t : State) (b : Nat), step s = .next t → t.mem.read b ≠ s.mem.read b →
    s.status = .running ∧ s.pc ≤ 253 ∧
    (s.mem.read s.pc = 0x45 ∨ s.mem.read s.pc = 0x50) ∧ (b : Int) = (s.sp : Int) - 1

/-- 10_state.md R16, R25: a step moves `sp` by one, down for PUSH and CALL and up for POP and RET, or not
at all. -/
def Obligations.StackPointerMovesOnlyByStackInstructions : Prop :=
  ∀ s t : State, step s = .next t →
    t.sp = s.sp ∨
    (s.status = .running ∧ (s.mem.read s.pc = 0x45 ∨ s.mem.read s.pc = 0x50) ∧ t.sp + 1 = s.sp) ∨
    (s.status = .running ∧ (s.mem.read s.pc = 0x46 ∨ s.mem.read s.pc = 0x11) ∧ t.sp = s.sp + 1)

/-- 10_state.md R20: a step leaves the output as it was, or runs PRN and appends the one value of its
register. -/
def Obligations.OutputGrowsOnlyByPrn : Prop :=
  ∀ s t : State, step s = .next t →
    t.out = s.out ∨
    (s.status = .running ∧ s.mem.read s.pc = 0x47 ∧
      ∃ h : (s.mem.read (s.pc + 1)).toNat < 8, t.out = s.out ++ [s.regs[(s.mem.read (s.pc + 1)).toNat]])

/-- 10_state.md R17 and its quotation of the source ("The only transition to Halted is the HLT handler"): a
step leaves a status that is not Running as it is (log 1), and takes Running to Running, to Halted exactly
by an HLT at a `pc` of at most 253, or to Faulted, which records a report and which nothing else does. -/
def Obligations.OnlyHltHaltsAndOnlyErrorsFault : Prop :=
  ∀ s t : State, step s = .next t →
    (s.status ≠ .running → t.status = s.status) ∧
    (s.status = .running →
      (t.status = .running ∨ t.status = .halted ∨ t.status = .faulted) ∧
      (t.status = .halted ↔ s.mem.read s.pc = 0x01 ∧ s.pc ≤ 253) ∧
      (t.status = .faulted → t.fault ≠ none) ∧ (t.status ≠ .faulted → t.fault = s.fault))

/-- 60_exceptions.md R151 (the spec's decision D8, log 8): a step that raises an error changes the status and
the report and nothing else, and the report names the `pc` of the failing instruction (R146). -/
def Obligations.ErrorsArePrecise : Prop :=
  ∀ s t : State, s.status = .running → step s = .next t → t.status = .faulted →
    ∃ r : ErrorReport, r.pc = s.pc ∧ t = { s with status := .faulted, fault := some r }

/-- 40_cycle.md R71, with 20_memory.md R32 for the failing address 256 (the spec's own derivation) and
10_state.md R18, 60_exceptions.md R146 for the report of a later error (the spec's decision D9, log 10): the
three reads are made for every opcode, in order, and the first that fails determines the error and the
report's opcode field; when they all succeed the cycle is the dispatch. -/
def Obligations.FetchReadsThreeBytesWhateverTheOpcode : Prop :=
  ∀ s : State, s.status = .running →
    (256 ≤ s.pc → ∃ t r, step s = .next t ∧ t.status = .faulted ∧ t.fault = some r ∧
      r.kind = .outOfRangeAddress ∧ r.space = some .mem ∧ r.index = some (s.pc : Int) ∧ r.opcode = none) ∧
    (s.pc = 254 ∨ s.pc = 255 → ∃ t r, step s = .next t ∧ t.status = .faulted ∧ t.fault = some r ∧
      r.kind = .outOfRangeAddress ∧ r.space = some .mem ∧ r.index = some 256 ∧
      r.opcode = some (s.mem.read s.pc)) ∧
    (s.pc ≤ 253 →
      s.fetch = .ok (s.mem.read s.pc, s.mem.read (s.pc + 1), s.mem.read (s.pc + 2)) ∧
      ∀ t r, step s = .next t → t.status = .faulted → t.fault = some r →
        r.opcode = some (s.mem.read s.pc))

/-- 60_exceptions.md R142: an opcode byte that is none of the nine, fetched with all three reads in range,
raises IllegalInstruction with the offending `pc` and byte, advances nothing, mutates no register, and
execution does not continue (that each later step answers the same state is the model's reading, log 1). -/
def Obligations.IllegalOpcodeStopsTheRun : Prop :=
  ∀ s : State, s.status = .running → s.pc ≤ 253 → s.mem.read s.pc ∉ opcodeBytes →
    ∃ t r, step s = .next t ∧ t.status = .faulted ∧ t.fault = some r ∧ r.kind = .illegalInstruction ∧
      r.pc = s.pc ∧ r.opcode = some (s.mem.read s.pc) ∧ t.pc = s.pc ∧ t.regs = s.regs ∧
      ∀ n : Nat, Sys2Proof.core.run n t = .next t

/-- 30_encoding.md R59: no operand byte is a cause of IllegalInstruction, which a step raises only where the
byte at `pc` is none of the nine opcode bytes; a handler's error is always OutOfRangeAddress, and every
immediate of LDI is legal. -/
def Obligations.HandlersRaiseOnlyOutOfRangeAddress : Prop :=
  (∀ (i : Instr) (s t : State) (r : ErrorReport), s.status = .running → exec i s = .next t →
    t.status = .faulted → t.fault = some r → r.kind = .outOfRangeAddress ∧ r.opcode = some i.opcode) ∧
  (∀ (a b : Byte) (s : State), a.toNat < 8 →
    ∃ t, exec (.ldi a b) s = .next t ∧ t.status = s.status) ∧
  (∀ (s t : State) (r : ErrorReport), s.status = .running → step s = .next t → t.status = .faulted →
    t.fault = some r → r.kind = .illegalInstruction → s.mem.read s.pc ∉ opcodeBytes)

/-- 60_exceptions.md R141, R142, R147, R151: with `pc` and `sp` in their reachable range, a running step
raises exactly the errors of the table, each with the table's report, the first failing check deciding
(the order among the handler's checks is the spec's decision D10, log 9; the unchanged rest is D8, log 8). -/
def Obligations.ErrorTableIsComplete : Prop :=
  ∀ s : State, s.status = .running → s.pc ≤ 256 → s.sp ≤ 256 →
    (∀ r : ErrorReport, s.Reports r → step s = .next (s.faultedWith r)) ∧
    (∀ t : State, step s = .next t → t.status = .faulted → ∃ r, s.Reports r ∧ t = s.faultedWith r)

/-- 40_cycle.md R74: a step is total, and the machine is never stuck: whatever the state, it answers a next
state, no fault and no refusal (for a status that is not Running this is the model's choice, log 1). -/
def Obligations.EveryStepAnswersANextState : Prop :=
  ∀ s : State, ∃ t, step s = .next t

/-- 41_halt.md R86, 60_exceptions.md R152, 10_state.md R17 (decision D7): while the status is Halted, Faulted
or Idle no cycle changes the state, however many are taken (the step that stands for none is log 1). -/
def Obligations.NoCycleRunsUnlessRunning : Prop :=
  ∀ s : State, s.status ≠ .running → ∀ n : Nat, Sys2Proof.core.run n s = .next s

/-- 40_cycle.md R75: a run that is no longer Running ended in one of its cycles, by an HLT or by an error,
and no later cycle changed anything (the end is final by the spec's decision D7; that a longer run then
answers the same state is the model's reading, log 1). -/
def Obligations.RunEndsOnlyByHltOrByAnError : Prop :=
  ∀ (n : Nat) (s t : State), s.status = .running → Sys2Proof.core.run n s = .next t →
    t.status ≠ .running →
    ∃ (k : Nat) (u : State), k < n ∧ Sys2Proof.core.run k s = .next u ∧ u.status = .running ∧
      step u = .next t ∧
      ((t.status = .halted ∧ u.mem.read u.pc = 0x01) ∨ (t.status = .faulted ∧ t.fault ≠ none)) ∧
      ∀ m : Nat, k < m → Sys2Proof.core.run m s = .next t

/-! ### The invariant -/

/-- What the spec says of every reachable state (10_state.md R14, R16, R18, R19; 60_exceptions.md R141,
R146, R151) is kept by every step. The canonical form is the model's (log 21), and so is the step of a
stopped machine (log 1). -/
def Obligations.StepKeepsTheInvariant : Prop :=
  ∀ s t : State, s.Inv → step s = .next t → t.Inv

/-- The reset state meets the invariant. -/
def Obligations.ResetMeetsTheInvariant : Prop := State.reset.Inv

/-- 70_reset_and_hazards.md R170, R174, R177: reset, load and start keep the invariant, whatever the status. -/
def Obligations.TransactionsKeepTheInvariant : Prop :=
  ∀ (s : State) (c : Transaction), s.Inv → (s.transact c).1.Inv

/-! ### Reset, load, start -/

/-- 10_state.md R23. Registers 0 to 6, `pc` and the status are values of the spec's decisions D5, D4 and D6
(log 4), not of the source. -/
def Obligations.ResetStateIsTheTable : Prop :=
  (∀ a : Nat, a < 256 → State.reset.mem.read a = 0) ∧
  State.reset.regs = #v[0, 0, 0, 0, 0, 0, 0, 0xF4] ∧ State.reset.sp = 0xF4 ∧ State.reset.pc = 0 ∧
  State.reset.status = .idle ∧ State.reset.fault = none ∧ State.reset.out = []

/-- 70_reset_and_hazards.md R174, R175: in Idle an image of at most 256 bytes stands in memory from address 0,
every other cell as before, and nothing but memory changed; a longer one is refused and changes nothing (the
spec's decision D15). The spec assumes one load per reset: that a second load in Idle is laid over the first,
and the reply, are the model's choice (log 13). -/
def Obligations.LoadPlacesTheImageFromZero : Prop :=
  ∀ (s : State) (bytes : List Byte), s.status = .idle →
    (bytes.length ≤ 256 → ∃ m : Memory, s.transact (.load bytes) = ({ s with mem := m }, .done) ∧
      (∀ (i : Nat) (h : i < bytes.length), m.read i = bytes[i]) ∧
      (∀ i : Nat, bytes.length ≤ i → m.read i = s.mem.read i)) ∧
    (256 < bytes.length → s.transact (.load bytes) = (s, .programLoadError))

/-- 70_reset_and_hazards.md R177, R180: start makes an Idle machine Running and changes nothing else; in any
other status neither start nor load has an effect (the spec's decisions D7 and D15, log 13); a reset gives
the whole reset state from any status (R170). The reply is the model's choice (log 13), and so is a start
after a refused load, which is the start of any Idle machine (log 23). -/
def Obligations.HostActsOnlyOnAnIdleMachine : Prop :=
  (∀ s : State, s.status = .idle → s.transact .start = ({ s with status := .running }, .done)) ∧
  (∀ s : State, s.status ≠ .idle → s.transact .start = (s, .noEffect) ∧
    ∀ bytes : List Byte, s.transact (.load bytes) = (s, .noEffect)) ∧
  (∀ s : State, s.transact .construct = (State.reset, .done))

/-- 70_reset_and_hazards.md R172, R174, R177: a machine reset, loaded with an image and started runs, in its
first cycle, the instruction that the first bytes of the image stand for, from address 0 (the reset `pc` is
the spec's decision D4, log 4). -/
def Obligations.FirstCycleRunsTheFirstLoadedInstruction : Prop :=
  ∀ (i : Instr) (rest : List Byte) (s : State), (encode i ++ rest).length ≤ 256 →
    ∃ t u, (s.transact .construct).1.transact (.load (encode i ++ rest)) = (t, .done) ∧
      t.transact .start = (u, .done) ∧ u.pc = 0 ∧ u.status = .running ∧ step u = exec i u

/-! ### Laws of several instructions -/

/-- 43_alu.md R102 (associativity and distributivity are the spec's own derivation): the value ADD or MUL
writes is the same with the two source values exchanged; with the operands exchanged another register is
written; both are associative and MUL distributes over ADD, modulo 256. -/
def Obligations.AddAndMulObeyRingLaws : Prop :=
  (∀ (op : Byte → Byte → Instr), op = .add ∨ op = .mul →
    (∀ (d r : Byte) (s u : State) (hd : d.toNat < 8) (hr : r.toNat < 8),
      u.regs[d.toNat] = s.regs[r.toNat] → u.regs[r.toNat] = s.regs[d.toNat] →
      ∃ t v, exec (op d r) s = .next t ∧ exec (op d r) u = .next v ∧ t.regs[d.toNat] = v.regs[d.toNat]) ∧
    (∀ (d r : Byte) (s : State) (hd : d.toNat < 8) (hr : r.toNat < 8), d ≠ r →
      ∃ t v, exec (op d r) s = .next t ∧ exec (op r d) s = .next v ∧
        t.regs[d.toNat] = v.regs[r.toNat] ∧
        t.regs[r.toNat] = s.regs[r.toNat] ∧ v.regs[d.toNat] = s.regs[d.toNat]) ∧
    (∀ (d e f : Byte) (s : State) (hd : d.toNat < 8) (_ : e.toNat < 8) (_ : f.toNat < 8),
      d ≠ e → e ≠ f → d ≠ f →
      ∃ t1 t2 v1 v2, exec (op d e) s = .next t1 ∧ exec (op d f) t1 = .next t2 ∧
        exec (op e f) s = .next v1 ∧ exec (op d e) v1 = .next v2 ∧ t2.regs[d.toNat] = v2.regs[d.toNat])) ∧
  (∀ (d e f : Byte) (s : State) (_ : d.toNat < 8) (he : e.toNat < 8) (_ : f.toNat < 8),
    d ≠ e → e ≠ f → d ≠ f →
    ∃ t1 t2 v1 v2 v3, exec (.add e f) s = .next t1 ∧ exec (.mul e d) t1 = .next t2 ∧
      exec (.mul e d) s = .next v1 ∧ exec (.mul f d) v1 = .next v2 ∧ exec (.add e f) v2 = .next v3 ∧
      t2.regs[e.toNat] = v3.regs[e.toNat])

/-- 44_stack.md R118 (the second and third clauses are the spec's own derivation): PUSH lowers `sp` by one
and POP raises it by one; POP after PUSH on the same register restores register and `sp`; a later POP with
the stack pointer and the pushed cell as the PUSH left them brings the pushed value into its register; two
pushes come off in reverse order. -/
def Obligations.PopUndoesPush : Prop :=
  (∀ (a : Byte) (s : State), a.toNat < 8 → 1 ≤ s.sp → s.sp ≤ 256 →
    ∃ t u, exec (.push a) s = .next t ∧ t.sp + 1 = s.sp ∧ exec (.pop a) t = .next u ∧
      u.sp = t.sp + 1 ∧ u.sp = s.sp ∧ u.regs = s.regs) ∧
  (∀ (a b : Byte) (s u : State) (ha : a.toNat < 8) (hb : b.toNat < 8), 1 ≤ s.sp → s.sp ≤ 256 →
    ∃ t, exec (.push a) s = .next t ∧
      (u.sp = t.sp → u.mem.read (s.sp - 1) = t.mem.read (s.sp - 1) →
        ∃ v, exec (.pop b) u = .next v ∧ v.regs[b.toNat] = s.regs[a.toNat] ∧ v.sp = s.sp)) ∧
  (∀ (a b c d : Byte) (s : State) (ha : a.toNat < 8) (hb : b.toNat < 8) (hc : c.toNat < 8)
    (hd : d.toNat < 8), 2 ≤ s.sp → s.sp ≤ 256 →
    ∃ t1 t2 t3 t4, exec (.push a) s = .next t1 ∧ exec (.push b) t1 = .next t2 ∧
      exec (.pop c) t2 = .next t3 ∧ exec (.pop d) t3 = .next t4 ∧
      t3.regs[c.toNat] = s.regs[b.toNat] ∧ t4.regs[d.toNat] = s.regs[a.toNat] ∧ t4.sp = s.sp)

/-- 45_subroutine.md R127 (in the precise form, which is the spec's own derivation): a RET executed with the
stack pointer and the return cell as a CALL at `pc = p`, `sp = n` left them goes to `p + 2` and restores
`sp` to `n`; neither changes the status. -/
def Obligations.RetReturnsBehindTheCall : Prop :=
  ∀ (a : Byte) (s u : State) (h : a.toNat < 8), 1 ≤ s.sp → s.sp ≤ 256 → s.pc + 2 ≤ 255 →
    ∃ t, exec (.call a) s = .next t ∧ t.pc = (s.regs[a.toNat]).toNat ∧ t.status = s.status ∧
      (u.sp = t.sp → u.mem.read (s.sp - 1) = t.mem.read (s.sp - 1) →
        ∃ v, exec .ret u = .next v ∧ v.pc = s.pc + 2 ∧ v.sp = s.sp ∧ v.status = u.status)

/-- The round trip quoted in 42_load_print.md R91: loading a value into a register and then printing the
register emits exactly that value. -/
def Obligations.LdiThenPrnEmitsTheValue : Prop :=
  ∀ (a v : Byte) (s : State), a.toNat < 8 →
    ∃ t u, exec (.ldi a v) s = .next t ∧ exec (.prn a) t = .next u ∧ u.out = s.out ++ [v] ∧
      u.pc = s.pc + 5 ∧ u.status = s.status

/-- 42_load_print.md R92 (the line feed and the numeral are the spec's decision D14, log 16): each PRN adds one
line to the text of the output, the decimal numeral of the register's value. -/
def Obligations.EachPrnAddsOneDecimalLine : Prop :=
  ∀ (a : Byte) (s : State) (h : a.toNat < 8),
    ∃ t, exec (.prn a) s = .next t ∧
      t.outText = s.outText ++ Nat.repr (s.regs[a.toNat]).toNat ++ "\n"

/-- 20_memory.md R43, for the very next cycle: a store is seen by its fetch with no other action, and does not
affect the instruction that makes it, whose operands were read before. -/
def Obligations.StoreIsSeenByTheNextFetch : Prop :=
  ∀ s t : State, s.status = .running → (s.mem.read s.pc = 0x45 ∨ s.mem.read s.pc = 0x50) →
    step s = .next t → t.status = .running →
    ∃ (h : (s.mem.read (s.pc + 1)).toNat < 8) (v : Byte),
      (s.mem.read s.pc = 0x45 → v = s.regs[(s.mem.read (s.pc + 1)).toNat] ∧ t.pc = s.pc + 2) ∧
      (s.mem.read s.pc = 0x50 → v.toNat = s.pc + 2 ∧ t.pc = (s.regs[(s.mem.read (s.pc + 1)).toNat]).toNat) ∧
      (t.pc ≤ 253 → ∃ ir a b,
        t.fetch = .ok (ir, a, b) ∧
        ir = (if t.pc + 1 = s.sp then v else s.mem.read t.pc) ∧
        a = (if t.pc + 2 = s.sp then v else s.mem.read (t.pc + 1)) ∧
        b = (if t.pc + 3 = s.sp then v else s.mem.read (t.pc + 2)) ∧
        ∀ i, decode ir a b = .ok i → step t = exec i t)

/-! ### Memory -/

/-- 20_memory.md R32, R33, whole: inside the bounds a read answers the cell and a write changes that one cell
and nothing else; outside them both raise OutOfRangeAddress(Mem, address), and no address wraps. -/
def Obligations.MemoryReadsAndWritesOneBoundedCell : Prop :=
  ∀ (s : State) (addr : Int),
    (0 ≤ addr ∧ addr < 256 → s.memRead addr = .ok (s.mem.read addr.toNat)) ∧
    (∀ v : Byte, 0 ≤ addr ∧ addr < 256 → ∃ t, s.memWrite addr v = .ok t ∧ t = { s with mem := t.mem } ∧
      t.memRead addr = .ok v ∧ (∀ other : Int, other ≠ addr → t.memRead other = s.memRead other)) ∧
    (¬(0 ≤ addr ∧ addr < 256) → s.memRead addr = .error (.outOfRange .mem addr) ∧
      ∀ v : Byte, s.memWrite addr v = .error (.outOfRange .mem addr))

/-- The model's canonical form (log 21): two canonical memories that read alike at every address are the
same list, so equal memories are equal data; and a write keeps the form. -/
def Obligations.CanonicalMemoriesThatReadAlikeAreEqual : Prop :=
  (∀ m n : Memory, m.wf → n.wf → (∀ a : Nat, m.read a = n.read a) → m = n) ∧
  (∀ (m : Memory) (a : Nat) (v : Byte), m.wf → (m.write a v).wf)
end

