-- ==== Sys2Proof/Laws/Decode.lean ====
section
/-! SUPPORT. What the decoder answers for each opcode byte, and what an answer says of the bytes. -/

namespace Sys2Proof

theorem decode_hlt (a b : Byte) : decode 0x01 a b = .ok .hlt := rfl
theorem decode_ldi (a b : Byte) : decode 0x82 a b = .ok (.ldi a b) := rfl
theorem decode_prn (a b : Byte) : decode 0x47 a b = .ok (.prn a) := rfl
theorem decode_mul (a b : Byte) : decode 0xA2 a b = .ok (.mul a b) := rfl
theorem decode_add (a b : Byte) : decode 0xA0 a b = .ok (.add a b) := rfl
theorem decode_push (a b : Byte) : decode 0x45 a b = .ok (.push a) := rfl
theorem decode_pop (a b : Byte) : decode 0x46 a b = .ok (.pop a) := rfl
theorem decode_call (a b : Byte) : decode 0x50 a b = .ok (.call a) := rfl
theorem decode_ret (a b : Byte) : decode 0x11 a b = .ok .ret := rfl

/-- The decoder's nine answers, and its only rejection. -/
theorem decode_cases (ir a b : Byte) :
    (ir = 0x01 ∧ decode ir a b = .ok .hlt) ∨ (ir = 0x82 ∧ decode ir a b = .ok (.ldi a b)) ∨
    (ir = 0x47 ∧ decode ir a b = .ok (.prn a)) ∨ (ir = 0xA2 ∧ decode ir a b = .ok (.mul a b)) ∨
    (ir = 0xA0 ∧ decode ir a b = .ok (.add a b)) ∨ (ir = 0x45 ∧ decode ir a b = .ok (.push a)) ∨
    (ir = 0x46 ∧ decode ir a b = .ok (.pop a)) ∨ (ir = 0x50 ∧ decode ir a b = .ok (.call a)) ∨
    (ir = 0x11 ∧ decode ir a b = .ok .ret) ∨
    (ir ∉ Machine.opcodeBytes ∧ decode ir a b = .error (.illegalOpcode ir)) := by
  by_cases h : ir ∈ Machine.opcodeBytes
  · simp only [Machine.opcodeBytes, List.mem_cons, List.not_mem_nil, or_false] at h
    rcases h with rfl | rfl | rfl | rfl | rfl | rfl | rfl | rfl | rfl
    · exact .inl ⟨rfl, rfl⟩
    · exact .inr (.inl ⟨rfl, rfl⟩)
    · exact .inr (.inr (.inl ⟨rfl, rfl⟩))
    · exact .inr (.inr (.inr (.inl ⟨rfl, rfl⟩)))
    · exact .inr (.inr (.inr (.inr (.inl ⟨rfl, rfl⟩))))
    · exact .inr (.inr (.inr (.inr (.inr (.inl ⟨rfl, rfl⟩)))))
    · exact .inr (.inr (.inr (.inr (.inr (.inr (.inl ⟨rfl, rfl⟩))))))
    · exact .inr (.inr (.inr (.inr (.inr (.inr (.inr (.inl ⟨rfl, rfl⟩)))))))
    · exact .inr (.inr (.inr (.inr (.inr (.inr (.inr (.inr (.inl ⟨rfl, rfl⟩))))))))
  · refine .inr (.inr (.inr (.inr (.inr (.inr (.inr (.inr (.inr ⟨h, ?_⟩))))))))
    have hn : opcodeTable.find? (fun row => row.opcode == ir) = none := by
      rw [List.find?_eq_none]
      intro row hrow he
      apply h
      rw [← beq_iff_eq.1 he]
      simp only [opcodeTable, List.mem_cons, List.not_mem_nil, or_false] at hrow
      rcases hrow with rfl | rfl | rfl | rfl | rfl | rfl | rfl | rfl | rfl <;> decide
    rw [decode, hn]

/-- A rejected opcode byte is none of the nine. -/
theorem decode_error {ir a b : Byte} {e : DecodeError} (h : decode ir a b = .error e) :
    ir ∉ Machine.opcodeBytes ∧ e = .illegalOpcode ir := by
  rcases decode_cases ir a b with ⟨-, g⟩ | ⟨-, g⟩ | ⟨-, g⟩ | ⟨-, g⟩ | ⟨-, g⟩ | ⟨-, g⟩ | ⟨-, g⟩ |
    ⟨-, g⟩ | ⟨-, g⟩ | ⟨hn, g⟩ <;> rw [g] at h
  all_goals first | exact ⟨hn, (Except.error.inj h).symm⟩ | cases h

theorem decode_illegal {ir : Byte} (a b : Byte) (h : ir ∉ Machine.opcodeBytes) :
    decode ir a b = .error (.illegalOpcode ir) := by
  cases hd : decode ir a b with
  | error e => rw [(decode_error hd).2]
  | ok i =>
    rcases decode_cases ir a b with ⟨rfl, -⟩ | ⟨rfl, -⟩ | ⟨rfl, -⟩ | ⟨rfl, -⟩ | ⟨rfl, -⟩ | ⟨rfl, -⟩ |
      ⟨rfl, -⟩ | ⟨rfl, -⟩ | ⟨rfl, -⟩ | ⟨-, g⟩
    all_goals first | exact absurd (by decide) h | (rw [g] at hd; cases hd)

/-- A decoded instruction has the opcode byte it was decoded from. -/
theorem decode_ok_opcode {ir a b : Byte} {i : Instr} (h : decode ir a b = .ok i) : i.opcode = ir := by
  rcases decode_cases ir a b with ⟨rfl, g⟩ | ⟨rfl, g⟩ | ⟨rfl, g⟩ | ⟨rfl, g⟩ | ⟨rfl, g⟩ | ⟨rfl, g⟩ |
    ⟨rfl, g⟩ | ⟨rfl, g⟩ | ⟨rfl, g⟩ | ⟨-, g⟩ <;> rw [g] at h <;> cases h <;> rfl

end Sys2Proof
end

