-- ==== Sys2Proof/Laws/Memory.lean ====
section
/-! SUPPORT. The laws of the memory list: read after write, what a write leaves alone, and that every
memory operation keeps the canonical form. -/

namespace Sys2Proof.Machine

@[simp] theorem Memory.read_nil (a : Nat) : Memory.read [] a = 0 := rfl

theorem Memory.read_cons (c : Host.Cell) (m : Memory) (a : Nat) :
    Memory.read (c :: m) a = if c.1 = a then c.2 else Memory.read m a := rfl

/-- An address the list does not hold reads as an unlisted one. -/
theorem Memory.read_of_not_listed {m : Memory} {a : Nat} (h : ∀ c ∈ m, c.1 ≠ a) : m.read a = 0 := by
  induction m with
  | nil => rfl
  | cons c m ih =>
    rw [Memory.read_cons, if_neg (h c (by simp))]
    exact ih fun d hd => h d (by simp [hd])

theorem Memory.read_of_mem {m : Memory} (h : m.wf) {c : Host.Cell} (hc : c ∈ m) : m.read c.1 = c.2 := by
  induction m with
  | nil => cases hc
  | cons d m ih =>
    obtain ⟨hp, hz⟩ := h
    rw [List.pairwise_cons] at hp
    rw [Memory.read_cons]
    rcases List.mem_cons.1 hc with rfl | hm
    · simp
    · rw [if_neg (Nat.ne_of_lt (hp.1 c hm))]
      exact ih ⟨hp.2, fun e he => hz e (by simp [he])⟩ hm

theorem Memory.read_erase (m : Memory) (a b : Nat) :
    (m.erase a).read b = if b = a then 0 else m.read b := by
  induction m with
  | nil => simp [Memory.erase]
  | cons c m ih =>
    simp only [Memory.erase] at ih
    by_cases hc : c.1 = a
    · simp only [Memory.erase, List.filter_cons, hc, bne_self_eq_false, Bool.false_eq_true, if_false, ih,
        Memory.read_cons]
      by_cases hb : b = a
      · simp [hb]
      · simp [hb, Ne.symm hb]
    · simp only [Memory.erase, List.filter_cons, bne_iff_ne, ne_eq, hc, not_false_eq_true, if_true, ih,
        Memory.read_cons]
      by_cases hb : c.1 = b
      · subst hb; simp [hc]
      · simp [hb]

theorem Memory.read_insert (m : Memory) (a b : Nat) (v : Byte) (h : ∀ c ∈ m, c.1 ≠ a) :
    (m.insert a v).read b = if b = a then v else m.read b := by
  induction m with
  | nil => simp [Memory.insert, Memory.read_cons, eq_comm]
  | cons c m ih =>
    have hc := h c (by simp)
    have ih := ih fun d hd => h d (by simp [hd])
    unfold Memory.insert
    split
    · rw [Memory.read_cons]; simp [eq_comm]
    · rw [Memory.read_cons, ih, Memory.read_cons]
      by_cases hb : c.1 = b
      · subst hb; simp [hc]
      · simp [hb]

theorem Memory.not_listed_erase (m : Memory) (a : Nat) : ∀ c ∈ m.erase a, c.1 ≠ a := by
  intro c hc
  simpa using (List.mem_filter.1 hc).2

/-- Everything a write does to reads (R33): the written cell reads as the byte, every other cell as before. -/
theorem Memory.read_write (m : Memory) (a b : Nat) (v : Byte) :
    (m.write a v).read b = if b = a then v else m.read b := by
  unfold Memory.write
  split
  · rename_i hv
    rw [Memory.read_erase]
    split
    · exact hv.symm
    · rfl
  · rw [Memory.read_insert _ _ _ _ (m.not_listed_erase a), Memory.read_erase]
    split <;> rfl

@[simp] theorem Memory.read_write_same (m : Memory) (a : Nat) (v : Byte) : (m.write a v).read a = v := by
  rw [Memory.read_write]; simp

theorem Memory.read_write_other (m : Memory) {a b : Nat} (v : Byte) (h : b ≠ a) :
    (m.write a v).read b = m.read b := by
  rw [Memory.read_write]; simp [h]

theorem Memory.mem_insert {m : Memory} {a : Nat} {v : Byte} {c : Host.Cell} :
    c ∈ m.insert a v ↔ c = (a, v) ∨ c ∈ m := by
  induction m with
  | nil => simp [Memory.insert]
  | cons d m ih =>
    unfold Memory.insert
    split
    · simp
    · simp only [List.mem_cons, ih]; tauto

theorem Memory.wf_nil : Memory.wf [] := ⟨List.Pairwise.nil, by simp⟩

theorem Memory.wf_erase {m : Memory} (h : m.wf) (a : Nat) : Memory.wf (m.erase a) :=
  ⟨h.1.filter _, fun c hc => h.2 c (List.mem_filter.1 hc).1⟩

theorem Memory.wf_insert {m : Memory} (h : m.wf) {a : Nat} {v : Byte} (hv : v ≠ Config.cellReset)
    (hn : ∀ c ∈ m, c.1 ≠ a) : Memory.wf (m.insert a v) := by
  refine ⟨?_, fun c hc => ?_⟩
  · have hp := h.1
    clear h
    induction m with
    | nil => simp [Memory.insert]
    | cons d m ih =>
      rw [List.pairwise_cons] at hp
      have hd := hn d (by simp)
      have ih := ih (fun c hc => hn c (by simp [hc])) hp.2
      unfold Memory.insert
      split
      · rename_i had
        refine List.pairwise_cons.2 ⟨fun c hc => ?_, List.pairwise_cons.2 hp⟩
        rcases List.mem_cons.1 hc with rfl | hm
        · exact had
        · exact Nat.lt_trans had (hp.1 c hm)
      · refine List.pairwise_cons.2 ⟨fun c hc => ?_, ih⟩
        rcases Memory.mem_insert.1 hc with rfl | hm
        · simp only; omega
        · exact hp.1 c hm
  · rcases Memory.mem_insert.1 hc with rfl | hm
    · exact hv
    · exact h.2 c hm

/-- A write keeps the canonical form. -/
theorem Memory.wf_write {m : Memory} (h : m.wf) (a : Nat) (v : Byte) : Memory.wf (m.write a v) := by
  unfold Memory.write
  split
  · exact Memory.wf_erase h a
  · rename_i hv
    exact Memory.wf_insert (Memory.wf_erase h a) hv (m.not_listed_erase a)

/-- A write inside memory lists no address outside it. -/
theorem Memory.inRange_write {m : Memory} (h : m.inRange) {a : Nat} (ha : a < Config.memSize) (v : Byte) :
    Memory.inRange (m.write a v) := by
  intro c hc
  unfold Memory.write at hc
  split at hc
  · exact h c (List.mem_filter.1 hc).1
  · rcases Memory.mem_insert.1 hc with rfl | hm
    · exact ha
    · exact h c (List.mem_filter.1 hm).1

/-- Placing bytes keeps the canonical form. -/
theorem Memory.wf_place {m : Memory} (h : m.wf) (a : Nat) (bytes : List Byte) :
    Memory.wf (m.place a bytes) := by
  induction bytes generalizing m a with
  | nil => exact h
  | cons v bytes ih => exact ih (Memory.wf_write h a v) (a + 1)

theorem Memory.inRange_place {m : Memory} (h : m.inRange) {a : Nat} {bytes : List Byte}
    (ha : a + bytes.length ≤ Config.memSize) : Memory.inRange (m.place a bytes) := by
  induction bytes generalizing m a with
  | nil => exact h
  | cons v bytes ih =>
    simp only [List.length_cons] at ha
    exact ih (Memory.inRange_write h (by omega) v) (by omega)

/-- Everything placing bytes does to reads: the bytes at ascending addresses, every other cell as before. -/
theorem Memory.read_place (m : Memory) (a : Nat) (bytes : List Byte) (b : Nat) :
    (m.place a bytes).read b = if a ≤ b then (bytes[b - a]?).getD (m.read b) else m.read b := by
  induction bytes generalizing m a with
  | nil => simp [Memory.place]
  | cons v bytes ih =>
    rw [Memory.place, ih, Memory.read_write]
    rcases Nat.lt_trichotomy b a with h | h | h
    · simp [Nat.not_le.2 h, Nat.ne_of_lt h, Nat.not_le.2 (Nat.lt_succ_of_lt h)]
    · subst h; simp
    · have e : b - a = (b - (a + 1)) + 1 := by omega
      simp [Nat.le_of_lt h, Nat.succ_le_of_lt h, Nat.ne_of_gt h, e]

end Sys2Proof.Machine
end

