-- ==== Sys2Proof/Laws/State.lean ====
section
/-! SUPPORT. One lemma per field and update of the state record. -/

namespace Sys2Proof.Machine

@[simp] theorem State.setPc_regs (s : State) (n : Nat) : (s.setPc n).regs = s.regs := rfl
@[simp] theorem State.setPc_pc (s : State) (n : Nat) : (s.setPc n).pc = n := rfl
@[simp] theorem State.setPc_sp (s : State) (n : Nat) : (s.setPc n).sp = s.sp := rfl
@[simp] theorem State.setPc_mem (s : State) (n : Nat) : (s.setPc n).mem = s.mem := rfl
@[simp] theorem State.setPc_status (s : State) (n : Nat) : (s.setPc n).status = s.status := rfl
@[simp] theorem State.setPc_fault (s : State) (n : Nat) : (s.setPc n).fault = s.fault := rfl
@[simp] theorem State.setPc_out (s : State) (n : Nat) : (s.setPc n).out = s.out := rfl

@[simp] theorem State.setSp_regs (s : State) (n : Nat) : (s.setSp n).regs = s.regs := rfl
@[simp] theorem State.setSp_pc (s : State) (n : Nat) : (s.setSp n).pc = s.pc := rfl
@[simp] theorem State.setSp_sp (s : State) (n : Nat) : (s.setSp n).sp = n := rfl
@[simp] theorem State.setSp_mem (s : State) (n : Nat) : (s.setSp n).mem = s.mem := rfl
@[simp] theorem State.setSp_status (s : State) (n : Nat) : (s.setSp n).status = s.status := rfl
@[simp] theorem State.setSp_fault (s : State) (n : Nat) : (s.setSp n).fault = s.fault := rfl
@[simp] theorem State.setSp_out (s : State) (n : Nat) : (s.setSp n).out = s.out := rfl

@[simp] theorem State.setMem_regs (s : State) (m : Memory) : (s.setMem m).regs = s.regs := rfl
@[simp] theorem State.setMem_pc (s : State) (m : Memory) : (s.setMem m).pc = s.pc := rfl
@[simp] theorem State.setMem_sp (s : State) (m : Memory) : (s.setMem m).sp = s.sp := rfl
@[simp] theorem State.setMem_mem (s : State) (m : Memory) : (s.setMem m).mem = m := rfl
@[simp] theorem State.setMem_status (s : State) (m : Memory) : (s.setMem m).status = s.status := rfl
@[simp] theorem State.setMem_fault (s : State) (m : Memory) : (s.setMem m).fault = s.fault := rfl
@[simp] theorem State.setMem_out (s : State) (m : Memory) : (s.setMem m).out = s.out := rfl

@[simp] theorem State.setReg_regs (s : State) (r : Fin Config.numRegs) (v : Byte) : (s.setReg r v).regs = s.regs.set r v := rfl
@[simp] theorem State.setReg_pc (s : State) (r : Fin Config.numRegs) (v : Byte) : (s.setReg r v).pc = s.pc := rfl
@[simp] theorem State.setReg_sp (s : State) (r : Fin Config.numRegs) (v : Byte) : (s.setReg r v).sp = s.sp := rfl
@[simp] theorem State.setReg_mem (s : State) (r : Fin Config.numRegs) (v : Byte) : (s.setReg r v).mem = s.mem := rfl
@[simp] theorem State.setReg_status (s : State) (r : Fin Config.numRegs) (v : Byte) : (s.setReg r v).status = s.status := rfl
@[simp] theorem State.setReg_fault (s : State) (r : Fin Config.numRegs) (v : Byte) : (s.setReg r v).fault = s.fault := rfl
@[simp] theorem State.setReg_out (s : State) (r : Fin Config.numRegs) (v : Byte) : (s.setReg r v).out = s.out := rfl

@[simp] theorem State.emit_regs (s : State) (v : Byte) : (s.emit v).regs = s.regs := rfl
@[simp] theorem State.emit_pc (s : State) (v : Byte) : (s.emit v).pc = s.pc := rfl
@[simp] theorem State.emit_sp (s : State) (v : Byte) : (s.emit v).sp = s.sp := rfl
@[simp] theorem State.emit_mem (s : State) (v : Byte) : (s.emit v).mem = s.mem := rfl
@[simp] theorem State.emit_status (s : State) (v : Byte) : (s.emit v).status = s.status := rfl
@[simp] theorem State.emit_fault (s : State) (v : Byte) : (s.emit v).fault = s.fault := rfl
@[simp] theorem State.emit_out (s : State) (v : Byte) : (s.emit v).out = s.out ++ [v] := rfl

@[simp] theorem State.halt_regs (s : State) : s.halt.regs = s.regs := rfl
@[simp] theorem State.halt_pc (s : State) : s.halt.pc = s.pc := rfl
@[simp] theorem State.halt_sp (s : State) : s.halt.sp = s.sp := rfl
@[simp] theorem State.halt_mem (s : State) : s.halt.mem = s.mem := rfl
@[simp] theorem State.halt_status (s : State) : s.halt.status = .halted := rfl
@[simp] theorem State.halt_fault (s : State) : s.halt.fault = s.fault := rfl
@[simp] theorem State.halt_out (s : State) : s.halt.out = s.out := rfl

@[simp] theorem State.raise_regs (s : State) (op : Option Byte) (e : Cause) : (s.raise op e).regs = s.regs := rfl
@[simp] theorem State.raise_pc (s : State) (op : Option Byte) (e : Cause) : (s.raise op e).pc = s.pc := rfl
@[simp] theorem State.raise_sp (s : State) (op : Option Byte) (e : Cause) : (s.raise op e).sp = s.sp := rfl
@[simp] theorem State.raise_mem (s : State) (op : Option Byte) (e : Cause) : (s.raise op e).mem = s.mem := rfl
@[simp] theorem State.raise_status (s : State) (op : Option Byte) (e : Cause) : (s.raise op e).status = .faulted := rfl
@[simp] theorem State.raise_fault (s : State) (op : Option Byte) (e : Cause) : (s.raise op e).fault = some (e.report s.pc op) := rfl
@[simp] theorem State.raise_out (s : State) (op : Option Byte) (e : Cause) : (s.raise op e).out = s.out := rfl

@[simp] theorem State.faultedWith_regs (s : State) (r : ErrorReport) : (s.faultedWith r).regs = s.regs := rfl
@[simp] theorem State.faultedWith_pc (s : State) (r : ErrorReport) : (s.faultedWith r).pc = s.pc := rfl
@[simp] theorem State.faultedWith_sp (s : State) (r : ErrorReport) : (s.faultedWith r).sp = s.sp := rfl
@[simp] theorem State.faultedWith_mem (s : State) (r : ErrorReport) : (s.faultedWith r).mem = s.mem := rfl
@[simp] theorem State.faultedWith_status (s : State) (r : ErrorReport) : (s.faultedWith r).status = .faulted := rfl
@[simp] theorem State.faultedWith_fault (s : State) (r : ErrorReport) : (s.faultedWith r).fault = some r := rfl
@[simp] theorem State.faultedWith_out (s : State) (r : ErrorReport) : (s.faultedWith r).out = s.out := rfl

@[simp] theorem State.withRegs_regs (s : State) (rs : Vector Byte Config.numRegs) : (s.withRegs rs).regs = rs := rfl
@[simp] theorem State.withRegs_pc (s : State) (rs : Vector Byte Config.numRegs) : (s.withRegs rs).pc = s.pc := rfl
@[simp] theorem State.withRegs_sp (s : State) (rs : Vector Byte Config.numRegs) : (s.withRegs rs).sp = s.sp := rfl
@[simp] theorem State.withRegs_mem (s : State) (rs : Vector Byte Config.numRegs) : (s.withRegs rs).mem = s.mem := rfl
@[simp] theorem State.withRegs_status (s : State) (rs : Vector Byte Config.numRegs) : (s.withRegs rs).status = s.status := rfl
@[simp] theorem State.withRegs_fault (s : State) (rs : Vector Byte Config.numRegs) : (s.withRegs rs).fault = s.fault := rfl
@[simp] theorem State.withRegs_out (s : State) (rs : Vector Byte Config.numRegs) : (s.withRegs rs).out = s.out := rfl

/-- Raising OutOfRangeAddress leaves the faulted state the statements name. -/
theorem State.raise_outOfRange (s : State) (op : Option Byte) (sp : Space) (i : Int) :
    s.raise op (.outOfRange sp i) = s.faultedWith (.outOfRange s.pc op sp i) := rfl

/-- Raising IllegalInstruction leaves the faulted state the statements name. -/
theorem State.raise_illegal (s : State) (ir : Byte) :
    s.raise (some ir) .illegal = s.faultedWith (.illegal s.pc ir) := rfl

@[simp] theorem State.noCycle_eq (s : State) : s.noCycle = s := rfl

end Sys2Proof.Machine
end

