-- ==== Sys2Proof/Laws/Ops.lean ====
section
/-! SUPPORT. One lemma per shared operation that says everything it can do; later proofs cite these
instead of unfolding. -/

namespace Sys2Proof.Machine

/-- An index of 0 to 7 passes the check. -/
theorem checkReg_ok {i : Byte} (h : i.toNat < 8) : checkReg i = .ok ⟨i.toNat, h⟩ := dif_pos h

/-- An index of 8 to 255 is reported as it stands. -/
theorem checkReg_error {i : Byte} (h : 8 ≤ i.toNat) : checkReg i = .error (.outOfRange .reg i.toNat) :=
  dif_neg (Nat.not_lt.2 h)

theorem checkReg_cases (i : Byte) :
    (∃ h : i.toNat < 8, checkReg i = .ok ⟨i.toNat, h⟩) ∨
    (8 ≤ i.toNat ∧ checkReg i = .error (.outOfRange .reg i.toNat)) := by
  by_cases h : i.toNat < 8
  · exact .inl ⟨h, checkReg_ok h⟩
  · exact .inr ⟨Nat.not_lt.1 h, checkReg_error (Nat.not_lt.1 h)⟩

theorem checkMem_ok {addr : Int} (h : 0 ≤ addr ∧ addr < 256) : checkMem addr = .ok addr.toNat := by
  cases addr with
  | ofNat a => exact if_pos (Int.ofNat_lt.1 h.2)
  | negSucc n => exact absurd h.1 (by omega)

theorem checkMem_error {addr : Int} (h : ¬(0 ≤ addr ∧ addr < 256)) :
    checkMem addr = .error (.outOfRange .mem addr) := by
  cases addr with
  | ofNat a => exact if_neg fun ha => h ⟨by simp, by exact Int.ofNat_lt.2 ha⟩
  | negSucc n => rfl

theorem readReg_ok (s : State) {i : Byte} (h : i.toNat < 8) : s.readReg i = .ok s.regs[i.toNat] := by
  rw [State.readReg, checkReg_ok h]; rfl

theorem readReg_error (s : State) {i : Byte} (h : 8 ≤ i.toNat) :
    s.readReg i = .error (.outOfRange .reg i.toNat) := by
  rw [State.readReg, checkReg_error h]; rfl

theorem writeReg_ok (s : State) {i : Byte} (v : Byte) (h : i.toNat < 8) :
    s.writeReg i v = .ok { s with regs := s.regs.set i.toNat v } := by
  rw [State.writeReg, checkReg_ok h]; rfl

theorem writeReg_error (s : State) {i : Byte} (v : Byte) (h : 8 ≤ i.toNat) :
    s.writeReg i v = .error (.outOfRange .reg i.toNat) := by
  rw [State.writeReg, checkReg_error h]; rfl

theorem memRead_ok (s : State) {addr : Int} (h : 0 ≤ addr ∧ addr < 256) :
    s.memRead addr = .ok (s.mem.read addr.toNat) := by
  rw [State.memRead, checkMem_ok h]; rfl

/-- A read at a natural address below 256. -/
theorem memRead_nat (s : State) {a : Nat} (h : a < 256) : s.memRead a = .ok (s.mem.read a) := by
  rw [memRead_ok s ⟨by omega, by omega⟩]; rfl

theorem memRead_error (s : State) {addr : Int} (h : ¬(0 ≤ addr ∧ addr < 256)) :
    s.memRead addr = .error (.outOfRange .mem addr) := by
  rw [State.memRead, checkMem_error h]; rfl

theorem memRead_nat_error (s : State) {a : Nat} (h : 256 ≤ a) :
    s.memRead a = .error (.outOfRange .mem a) := memRead_error s (by omega)

theorem memWrite_ok (s : State) {addr : Int} (v : Byte) (h : 0 ≤ addr ∧ addr < 256) :
    s.memWrite addr v = .ok { s with mem := s.mem.write addr.toNat v } := by
  rw [State.memWrite, checkMem_ok h]; rfl

theorem memWrite_error (s : State) {addr : Int} (v : Byte) (h : ¬(0 ≤ addr ∧ addr < 256)) :
    s.memWrite addr v = .error (.outOfRange .mem addr) := by
  rw [State.memWrite, checkMem_error h]; rfl

theorem pushAddr_eq (s : State) : s.pushAddr = (s.sp : Int) - 1 := rfl

/-- A push with `sp` from 1 to 256 stores at the natural address `sp - 1`. -/
theorem pushByte_ok (s : State) (v : Byte) (h : 1 ≤ s.sp ∧ s.sp ≤ 256) :
    s.pushByte v = .ok { s with mem := s.mem.write (s.sp - 1) v, sp := s.sp - 1 } := by
  have e : s.pushAddr.toNat = s.sp - 1 := by rw [pushAddr_eq]; omega
  rw [State.pushByte, memWrite_ok s v (by rw [pushAddr_eq]; omega), e]; rfl

theorem pushByte_error (s : State) (v : Byte) (h : ¬(1 ≤ s.sp ∧ s.sp ≤ 256)) :
    s.pushByte v = .error (.outOfRange .mem ((s.sp : Int) - 1)) := by
  rw [State.pushByte, memWrite_error s v (by rw [pushAddr_eq]; omega)]; rfl

theorem pushAddr_ok (s : State) (h : 1 ≤ s.sp ∧ s.sp ≤ 256) : checkMem s.pushAddr = .ok (s.sp - 1) := by
  rw [checkMem_ok (by rw [pushAddr_eq]; omega)]
  congr 1; rw [pushAddr_eq]; omega

theorem pushAddr_error (s : State) (h : ¬(1 ≤ s.sp ∧ s.sp ≤ 256)) :
    checkMem s.pushAddr = .error (.outOfRange .mem ((s.sp : Int) - 1)) := by
  rw [checkMem_error (by rw [pushAddr_eq]; omega)]; rfl

theorem popByte_ok (s : State) (h : s.sp < 256) :
    s.popByte = .ok (s.mem.read s.sp, { s with sp := s.sp + 1 }) := by
  rw [State.popByte, memRead_nat s h]; rfl

theorem popByte_error (s : State) (h : 256 ≤ s.sp) : s.popByte = .error (.outOfRange .mem s.sp) := by
  rw [State.popByte, memRead_nat_error s h]; rfl

/-- The ALU with both indices valid. -/
theorem aluApply_ok (s : State) (kind : AluKind) {d r : Byte} (hd : d.toNat < 8) (hr : r.toNat < 8) :
    s.aluApply kind d r =
      .ok { s with regs := s.regs.set d.toNat (aluResult kind s.regs[d.toNat] s.regs[r.toNat]) } := by
  simp only [State.aluApply, readReg_ok s hd, readReg_ok s hr, writeReg_ok s _ hd]

/-- The destination's index is checked first. -/
theorem aluApply_error_dest (s : State) (kind : AluKind) {d : Byte} (r : Byte) (hd : 8 ≤ d.toNat) :
    s.aluApply kind d r = .error (.outOfRange .reg d.toNat) := by
  simp only [State.aluApply, readReg_error s hd]

theorem aluApply_error_src (s : State) (kind : AluKind) {d r : Byte} (hd : d.toNat < 8)
    (hr : 8 ≤ r.toNat) : s.aluApply kind d r = .error (.outOfRange .reg r.toNat) := by
  simp only [State.aluApply, readReg_ok s hd, readReg_error s hr]

theorem aluResult_add_toNat (a b : Byte) : (aluResult .add a b).toNat = (a.toNat + b.toNat) % 256 := by
  simp [aluResult]

theorem aluResult_mul_toNat (a b : Byte) : (aluResult .mul a b).toNat = (a.toNat * b.toNat) % 256 := by
  simp [aluResult]

theorem orRaise_ok {α : Type} (s : State) (op : Byte) (v : α) (go : α → Result) :
    s.orRaise op (.ok v) go = go v := rfl

theorem orRaise_error {α : Type} (s : State) (op : Byte) (e : Cause) (go : α → Result) :
    s.orRaise op (.error e) go = .next (s.raise (some op) e) := rfl

theorem returnAddress_ok (s : State) (h : s.pc + 2 < 256) :
    s.returnAddress = some (BitVec.ofNat 8 (s.pc + 2)) := if_pos h

theorem returnAddress_none (s : State) (h : 256 ≤ s.pc + 2) : s.returnAddress = none :=
  if_neg (Nat.not_lt.2 h)

end Sys2Proof.Machine
end

