-- ==== Sys2Proof/Laws/Exec.lean ====
section
/-! SUPPORT. Inversion of each meaning: the cases in which it answers a next state, and what that state is.
Proofs about every instruction cite these instead of unfolding a meaning. -/

namespace Sys2Proof.Machine

theorem exec_hlt_inv {s t : State} (h : exec .hlt s = .next t) : t = s.halt :=
  (Host.Outcome.next.inj h).symm

theorem exec_ldi_inv {a b : Byte} {s t : State} (h : exec (.ldi a b) s = .next t) :
    (∃ _ : a.toNat < 8, t = { s with regs := s.regs.set a.toNat b, pc := s.pc + 3 }) ∨
    (8 ≤ a.toNat ∧ t = s.faultedWith (.outOfRange s.pc (some 0x82) .reg a.toNat)) := by
  rw [exec, execLdi] at h
  rcases Nat.lt_or_ge a.toNat 8 with ha | ha
  · rw [writeReg_ok _ _ ha] at h; exact .inl ⟨ha, (Host.Outcome.next.inj h).symm⟩
  · rw [writeReg_error _ _ ha] at h; exact .inr ⟨ha, (Host.Outcome.next.inj h).symm⟩

theorem exec_prn_inv {a : Byte} {s t : State} (h : exec (.prn a) s = .next t) :
    (∃ _ : a.toNat < 8, t = { s with out := s.out ++ [s.regs[a.toNat]], pc := s.pc + 2 }) ∨
    (8 ≤ a.toNat ∧ t = s.faultedWith (.outOfRange s.pc (some 0x47) .reg a.toNat)) := by
  rw [exec, execPrn] at h
  rcases Nat.lt_or_ge a.toNat 8 with ha | ha
  · rw [readReg_ok _ ha] at h; exact .inl ⟨ha, (Host.Outcome.next.inj h).symm⟩
  · rw [readReg_error _ ha] at h; exact .inr ⟨ha, (Host.Outcome.next.inj h).symm⟩

/-- The shape both ALU instructions share. -/
theorem orRaise_aluApply_inv {kind : AluKind} {op a b : Byte} {s t : State}
    (h : (s.orRaise op (s.aluApply kind a b) fun u => .next (u.setPc (s.pc + 3))) = .next t) :
    (∃ (_ : a.toNat < 8) (_ : b.toNat < 8),
      t = { s with regs := s.regs.set a.toNat (aluResult kind s.regs[a.toNat] s.regs[b.toNat]),
                   pc := s.pc + 3 }) ∨
    (8 ≤ a.toNat ∧ t = s.faultedWith (.outOfRange s.pc (some op) .reg a.toNat)) ∨
    (a.toNat < 8 ∧ 8 ≤ b.toNat ∧ t = s.faultedWith (.outOfRange s.pc (some op) .reg b.toNat)) := by
  rcases Nat.lt_or_ge a.toNat 8 with ha | ha
  · rcases Nat.lt_or_ge b.toNat 8 with hb | hb
    · rw [aluApply_ok _ _ ha hb] at h; exact .inl ⟨ha, hb, (Host.Outcome.next.inj h).symm⟩
    · rw [aluApply_error_src _ _ ha hb] at h
      exact .inr (.inr ⟨ha, hb, (Host.Outcome.next.inj h).symm⟩)
  · rw [aluApply_error_dest _ _ _ ha] at h; exact .inr (.inl ⟨ha, (Host.Outcome.next.inj h).symm⟩)

theorem exec_mul_inv {a b : Byte} {s t : State} (h : exec (.mul a b) s = .next t) :
    (∃ (_ : a.toNat < 8) (_ : b.toNat < 8),
      t = { s with regs := s.regs.set a.toNat (aluResult .mul s.regs[a.toNat] s.regs[b.toNat]),
                   pc := s.pc + 3 }) ∨
    (8 ≤ a.toNat ∧ t = s.faultedWith (.outOfRange s.pc (some 0xA2) .reg a.toNat)) ∨
    (a.toNat < 8 ∧ 8 ≤ b.toNat ∧ t = s.faultedWith (.outOfRange s.pc (some 0xA2) .reg b.toNat)) :=
  orRaise_aluApply_inv h

theorem exec_add_inv {a b : Byte} {s t : State} (h : exec (.add a b) s = .next t) :
    (∃ (_ : a.toNat < 8) (_ : b.toNat < 8),
      t = { s with regs := s.regs.set a.toNat (aluResult .add s.regs[a.toNat] s.regs[b.toNat]),
                   pc := s.pc + 3 }) ∨
    (8 ≤ a.toNat ∧ t = s.faultedWith (.outOfRange s.pc (some 0xA0) .reg a.toNat)) ∨
    (a.toNat < 8 ∧ 8 ≤ b.toNat ∧ t = s.faultedWith (.outOfRange s.pc (some 0xA0) .reg b.toNat)) :=
  orRaise_aluApply_inv h

theorem exec_push_inv {a : Byte} {s t : State} (h : exec (.push a) s = .next t) :
    (∃ _ : a.toNat < 8, 1 ≤ s.sp ∧ s.sp ≤ 256 ∧
      t = { s with mem := s.mem.write (s.sp - 1) s.regs[a.toNat], sp := s.sp - 1, pc := s.pc + 2 }) ∨
    (8 ≤ a.toNat ∧ t = s.faultedWith (.outOfRange s.pc (some 0x45) .reg a.toNat)) ∨
    (a.toNat < 8 ∧ ¬(1 ≤ s.sp ∧ s.sp ≤ 256) ∧
      t = s.faultedWith (.outOfRange s.pc (some 0x45) .mem ((s.sp : Int) - 1))) := by
  rw [exec, execPush] at h
  rcases Nat.lt_or_ge a.toNat 8 with ha | ha
  · rw [readReg_ok _ ha, orRaise_ok] at h
    by_cases hs : 1 ≤ s.sp ∧ s.sp ≤ 256
    · rw [pushByte_ok _ _ hs] at h
      exact .inl ⟨ha, hs.1, hs.2, (Host.Outcome.next.inj h).symm⟩
    · rw [pushByte_error _ _ hs] at h
      exact .inr (.inr ⟨ha, hs, (Host.Outcome.next.inj h).symm⟩)
  · rw [readReg_error _ ha] at h; exact .inr (.inl ⟨ha, (Host.Outcome.next.inj h).symm⟩)

theorem exec_pop_inv {a : Byte} {s t : State} (h : exec (.pop a) s = .next t) :
    (∃ _ : a.toNat < 8, s.sp < 256 ∧
      t = { s with regs := s.regs.set a.toNat (s.mem.read s.sp), sp := s.sp + 1, pc := s.pc + 2 }) ∨
    (8 ≤ a.toNat ∧ t = s.faultedWith (.outOfRange s.pc (some 0x46) .reg a.toNat)) ∨
    (a.toNat < 8 ∧ 256 ≤ s.sp ∧ t = s.faultedWith (.outOfRange s.pc (some 0x46) .mem s.sp)) := by
  rw [exec, execPop] at h
  rcases Nat.lt_or_ge a.toNat 8 with ha | ha
  · rw [checkReg_ok ha, orRaise_ok] at h
    rcases Nat.lt_or_ge s.sp 256 with hs | hs
    · rw [popByte_ok _ hs] at h; exact .inl ⟨ha, hs, (Host.Outcome.next.inj h).symm⟩
    · rw [popByte_error _ hs] at h; exact .inr (.inr ⟨ha, hs, (Host.Outcome.next.inj h).symm⟩)
  · rw [checkReg_error ha] at h; exact .inr (.inl ⟨ha, (Host.Outcome.next.inj h).symm⟩)

theorem exec_call_inv {a : Byte} {s t : State} (h : exec (.call a) s = .next t) :
    (∃ _ : a.toNat < 8, 1 ≤ s.sp ∧ s.sp ≤ 256 ∧ s.pc + 2 < 256 ∧
      t = { s with mem := s.mem.write (s.sp - 1) (BitVec.ofNat 8 (s.pc + 2)), sp := s.sp - 1,
                   pc := s.regs[a.toNat].toNat }) ∨
    (8 ≤ a.toNat ∧ t = s.faultedWith (.outOfRange s.pc (some 0x50) .reg a.toNat)) ∨
    (a.toNat < 8 ∧ ¬(1 ≤ s.sp ∧ s.sp ≤ 256) ∧
      t = s.faultedWith (.outOfRange s.pc (some 0x50) .mem ((s.sp : Int) - 1))) := by
  rw [exec, execCall] at h
  rcases Nat.lt_or_ge a.toNat 8 with ha | ha
  · rw [readReg_ok _ ha, orRaise_ok] at h
    by_cases hs : 1 ≤ s.sp ∧ s.sp ≤ 256
    · rw [pushAddr_ok _ hs, orRaise_ok] at h
      rcases Nat.lt_or_ge (s.pc + 2) 256 with hp | hp
      · rw [returnAddress_ok _ hp] at h
        simp only at h
        rw [pushByte_ok _ _ hs] at h
        exact .inl ⟨ha, hs.1, hs.2, hp, (Host.Outcome.next.inj h).symm⟩
      · rw [returnAddress_none _ hp] at h; cases h
    · rw [pushAddr_error _ hs] at h
      exact .inr (.inr ⟨ha, hs, (Host.Outcome.next.inj h).symm⟩)
  · rw [readReg_error _ ha] at h; exact .inr (.inl ⟨ha, (Host.Outcome.next.inj h).symm⟩)

theorem exec_ret_inv {s t : State} (h : exec .ret s = .next t) :
    (s.sp < 256 ∧ t = { s with sp := s.sp + 1, pc := (s.mem.read s.sp).toNat }) ∨
    (256 ≤ s.sp ∧ t = s.faultedWith (.outOfRange s.pc (some 0x11) .mem s.sp)) := by
  rw [exec, execRet] at h
  rcases Nat.lt_or_ge s.sp 256 with hs | hs
  · rw [popByte_ok _ hs] at h; exact .inl ⟨hs, (Host.Outcome.next.inj h).symm⟩
  · rw [popByte_error _ hs] at h; exact .inr ⟨hs, (Host.Outcome.next.inj h).symm⟩

end Sys2Proof.Machine
end

