-- ==== Sys2Proof/Laws/PerInstr.lean ====
section
/-! SUPPORT. A family of facts proved for each constructor of Instr. -/

namespace Sys2Proof.Laws.EncodedBytes

/-- An instruction's encoding is its opcode byte and as many operand bytes as its format has, and its
opcode is one of the nine (30_encoding.md R50, R55). -/
def Statement (i : Instr) : Prop :=
  (encode i).length = i.format.length ∧ (encode i).head? = some i.opcode ∧
    i.opcode ∈ Machine.opcodeBytes

theorem hlt : Statement .hlt := by unfold Statement; decide
theorem ldi (a b : Byte) : Statement (.ldi a b) := ⟨rfl, rfl, show (0x82 : Byte) ∈ Machine.opcodeBytes by decide⟩
theorem prn (a : Byte) : Statement (.prn a) := ⟨rfl, rfl, show (0x47 : Byte) ∈ Machine.opcodeBytes by decide⟩
theorem mul (a b : Byte) : Statement (.mul a b) := ⟨rfl, rfl, show (0xA2 : Byte) ∈ Machine.opcodeBytes by decide⟩
theorem add (a b : Byte) : Statement (.add a b) := ⟨rfl, rfl, show (0xA0 : Byte) ∈ Machine.opcodeBytes by decide⟩
theorem push (a : Byte) : Statement (.push a) := ⟨rfl, rfl, show (0x45 : Byte) ∈ Machine.opcodeBytes by decide⟩
theorem pop (a : Byte) : Statement (.pop a) := ⟨rfl, rfl, show (0x46 : Byte) ∈ Machine.opcodeBytes by decide⟩
theorem call (a : Byte) : Statement (.call a) := ⟨rfl, rfl, show (0x50 : Byte) ∈ Machine.opcodeBytes by decide⟩
theorem ret : Statement .ret := by unfold Statement; decide

end Sys2Proof.Laws.EncodedBytes
end

