-- ==== Sys2Proof/Laws/Step.lean ====
section
/-! SUPPORT. What a step can do: nothing while the status is not Running, else one of the fetch errors, an
illegal instruction, or the handler of the decoded instruction. -/

namespace Sys2Proof.Machine

theorem step_not_running {s : State} (h : s.status ≠ .running) : step s = .next s := by
  unfold step
  cases hs : s.status <;> first | exact absurd hs h | rfl

theorem step_running {s : State} (h : s.status = .running) :
    step s = match s.fetchInstr with
      | .error e => .next (s.raise e.1 e.2)
      | .ok i => exec i s := by
  cases s; cases h; rfl

theorem memRead_pc1 {s : State} (h : s.pc + 1 < 256) : s.memRead (s.pc + 1) = .ok s.aByte :=
  memRead_nat s h

theorem memRead_pc2 {s : State} (h : s.pc + 2 < 256) : s.memRead (s.pc + 2) = .ok s.bByte :=
  memRead_nat s h

/-- All three reads succeed exactly when the third does. -/
theorem fetch_ok {s : State} (h : s.pc + 2 < 256) : s.fetch = .ok (s.irByte, s.aByte, s.bByte) := by
  rw [State.fetch, memRead_nat s (by omega), memRead_pc1 (by omega), memRead_pc2 h]; rfl

theorem fetch_operandB {s : State} (h : s.pc = 254) :
    s.fetch = .error (some s.irByte, .outOfRange .mem 256) := by
  rw [State.fetch, memRead_nat s (by omega), memRead_pc1 (by omega), show (s.pc : Int) + 2 = 256 by omega,
    memRead_error s (by omega)]
  rfl

theorem fetch_operandA {s : State} (h : s.pc = 255) :
    s.fetch = .error (some s.irByte, .outOfRange .mem 256) := by
  rw [State.fetch, memRead_nat s (by omega), show (s.pc : Int) + 1 = 256 by omega,
    memRead_error s (by omega)]
  rfl

theorem fetch_opcode {s : State} (h : 256 ≤ s.pc) : s.fetch = .error (none, .outOfRange .mem s.pc) := by
  rw [State.fetch, memRead_nat_error s h]

theorem fetchInstr_ok {s : State} {i : Instr} (h : s.pc + 2 < 256)
    (hd : decode s.irByte s.aByte s.bByte = .ok i) : s.fetchInstr = .ok i := by
  rw [State.fetchInstr, fetch_ok h]; simp only [hd]

theorem fetchInstr_illegal {s : State} (h : s.pc + 2 < 256) (hn : s.irByte ∉ opcodeBytes) :
    s.fetchInstr = .error (some s.irByte, .illegal) := by
  rw [State.fetchInstr, fetch_ok h]; simp only [decode_illegal _ _ hn]

theorem fetchInstr_error {s : State} {e : FetchError} (h : s.fetch = .error e) :
    s.fetchInstr = .error e := by
  rw [State.fetchInstr, h]

theorem step_of_fetchInstr_ok {s : State} {i : Instr} (h : s.status = .running)
    (hf : s.fetchInstr = .ok i) : step s = exec i s := by
  rw [step_running h, hf]

theorem step_of_fetchInstr_error {s : State} {e : FetchError} (h : s.status = .running)
    (hf : s.fetchInstr = .error e) : step s = .next (s.raise e.1 e.2) := by
  rw [step_running h, hf]

theorem run_zero (s : State) : Sys2Proof.core.run 0 s = .next s := rfl

/-- A run of `n + 1` cycles whose first answers `t` is a run of `n` cycles from `t`. -/
theorem run_succ_of_next {s t : State} (h : step s = .next t) (n : Nat) :
    Sys2Proof.core.run (n + 1) s = Sys2Proof.core.run n t := by
  have hc : Sys2Proof.core.step s = .next t := h
  simp only [Host.Core.run, hc]

/-- Everything a step can do on a Running state. -/
theorem step_running_cases {s : State} (h : s.status = .running) :
    (256 ≤ s.pc ∧ step s = .next (s.faultedWith (.outOfRange s.pc none .mem s.pc))) ∨
    (254 ≤ s.pc ∧ s.pc ≤ 255 ∧ step s = .next (s.faultedWith (.outOfRange s.pc (some s.irByte) .mem 256))) ∨
    (s.pc ≤ 253 ∧ s.irByte ∉ opcodeBytes ∧ step s = .next (s.faultedWith (.illegal s.pc s.irByte))) ∨
    (s.pc ≤ 253 ∧ ∃ i, decode s.irByte s.aByte s.bByte = .ok i ∧ step s = exec i s) := by
  rcases Nat.lt_or_ge s.pc 254 with hp | hp
  · cases hd : decode s.irByte s.aByte s.bByte with
    | error e =>
      have hn := (decode_error hd).1
      exact .inr (.inr (.inl ⟨by omega, hn, step_of_fetchInstr_error h (fetchInstr_illegal (by omega) hn)⟩))
    | ok i =>
      exact .inr (.inr (.inr ⟨by omega, i, rfl, step_of_fetchInstr_ok h (fetchInstr_ok (by omega) hd)⟩))
  · rcases Nat.lt_or_ge s.pc 256 with hq | hq
    · have hf : s.fetch = .error (some s.irByte, .outOfRange .mem 256) := by
        rcases (by omega : s.pc = 254 ∨ s.pc = 255) with e | e
        · exact fetch_operandB e
        · exact fetch_operandA e
      exact .inr (.inl ⟨hp, by omega, step_of_fetchInstr_error h (fetchInstr_error hf)⟩)
    · exact .inl ⟨hq, step_of_fetchInstr_error h (fetchInstr_error (fetch_opcode hq))⟩

end Sys2Proof.Machine
end

