-- ==== Sys2Proof/Laws/Transactions.lean ====
section
/-! SUPPORT. What load and start do in each status. -/

namespace Sys2Proof.Machine

theorem load_idle {s : State} {bytes : List Byte} (h : s.status = .idle) (hk : bytes.length ≤ 256) :
    s.load bytes = ({ s with mem := s.mem.place 0 bytes }, .done) := by
  simp only [State.load, h]; exact if_pos hk

theorem load_too_long {s : State} {bytes : List Byte} (h : s.status = .idle) (hk : 256 < bytes.length) :
    s.load bytes = (s, .programLoadError) := by
  simp only [State.load, h]; exact if_neg (Nat.not_le.2 hk)

theorem load_not_idle {s : State} (bytes : List Byte) (h : s.status ≠ .idle) :
    s.load bytes = (s, .noEffect) := by
  unfold State.load; cases hs : s.status <;> first | exact absurd hs h | rfl

theorem start_idle {s : State} (h : s.status = .idle) :
    s.start = ({ s with status := .running }, .done) := by
  simp only [State.start, h]

theorem start_not_idle {s : State} (h : s.status ≠ .idle) : s.start = (s, .noEffect) := by
  unfold State.start; cases hs : s.status <;> first | exact absurd hs h | rfl

end Sys2Proof.Machine
end

