-- ==== Sys2Proof/Laws/WellFormed.lean ====
section
/-! SUPPORT. The well-formedness check of each instruction, read as a bound on its register operands. -/

namespace Sys2Proof

theorem regOk_iff (i : Byte) : Instr.regOk i = true ↔ i.toNat < 8 := decide_eq_true_iff

theorem wellFormed_ldi (a b : Byte) : (Instr.ldi a b).wellFormed = true ↔ a.toNat < 8 := regOk_iff a
theorem wellFormed_prn (a : Byte) : (Instr.prn a).wellFormed = true ↔ a.toNat < 8 := regOk_iff a
theorem wellFormed_push (a : Byte) : (Instr.push a).wellFormed = true ↔ a.toNat < 8 := regOk_iff a
theorem wellFormed_pop (a : Byte) : (Instr.pop a).wellFormed = true ↔ a.toNat < 8 := regOk_iff a
theorem wellFormed_call (a : Byte) : (Instr.call a).wellFormed = true ↔ a.toNat < 8 := regOk_iff a

theorem wellFormed_mul (a b : Byte) :
    (Instr.mul a b).wellFormed = true ↔ a.toNat < 8 ∧ b.toNat < 8 := by
  rw [← regOk_iff a, ← regOk_iff b]; exact Bool.and_eq_true_iff

theorem wellFormed_add (a b : Byte) :
    (Instr.add a b).wellFormed = true ↔ a.toNat < 8 ∧ b.toNat < 8 := by
  rw [← regOk_iff a, ← regOk_iff b]; exact Bool.and_eq_true_iff

end Sys2Proof
end

