-- ==== Sys2Proof/Tests/Slice0.lean ====
section
/-! SUPPORT. The model's own tests: the words of the opcode map written out, the refusals of WellFormed,
one-step tests whose expected results are the vectors V<n> of 95_test_vectors.md, and a witness for the
hypotheses of every statement. -/

namespace Sys2Proof.Tests

open Sys2Proof Sys2Proof.Machine

/-- The convention of 95_test_vectors.md section 3: the reset state, Running, `bytes` placed at `pc`. -/
def runningAt (pc : Nat) (bytes : List Byte) : State :=
  { State.reset with status := .running, pc := pc, mem := Memory.place [] pc bytes }

/-- The next state, or the state itself where there is none. -/
def nextOr (s : State) : Result → State
  | .next t => t
  | .fault _ => s
  | .refused _ => s

/-- The state after one step. -/
def stepped (s : State) : State := nextOr s (step s)

/-! ### Decoding: words written out from 30_encoding.md R55 and R60 -/

theorem test_decode_hlt : decode 0b00000001 0xFF 0xFF = .ok .hlt := by decide
theorem test_decode_ldi : decode 0b10000010 0 8 = .ok (.ldi 0 8) := by decide
theorem test_decode_prn : decode 0b01000111 2 0x99 = .ok (.prn 2) := by decide
theorem test_decode_mul : decode 0b10100010 0 1 = .ok (.mul 0 1) := by decide
theorem test_decode_add : decode 0b10100000 7 3 = .ok (.add 7 3) := by decide
theorem test_decode_push : decode 0b01000101 1 0xFF = .ok (.push 1) := by decide
theorem test_decode_pop : decode 0b01000110 9 0 = .ok (.pop 9) := by decide
theorem test_decode_call : decode 0b01010000 1 0 = .ok (.call 1) := by decide
theorem test_decode_ret : decode 0b00010001 8 8 = .ok .ret := by decide
/-- R58: 0x81 is not HLT, 0xA1 is not ADD. -/
theorem test_decode_neighbours_rejected :
    decode 0x81 0 0 = .error (.illegalOpcode 0x81) ∧ decode 0xA1 0 0 = .error (.illegalOpcode 0xA1) ∧
    decode 0x00 0 0 = .error (.illegalOpcode 0x00) := by decide
/-- The table's bit numbering: the second byte is bits 15 to 8 and the third bits 23 to 16. -/
theorem test_table_word_ldi : decodeTableWord 24 0x080082 = some (.ldi 0 8) := by decide
/-- Bits above `nbits` are zero. -/
theorem test_table_word_short : decodeTableWord 8 0xFFFF82 = some (.ldi 0 0) := by decide
theorem test_table_word_illegal : decodeTableWord 8 0x83 = none := by decide

/-! ### WellFormed refuses an index of 8 or more, once for each check (10_state.md R12) -/

theorem test_illformed_ldi : (Instr.ldi 8 0).wellFormed = false := by decide
theorem test_illformed_prn : (Instr.prn 8).wellFormed = false := by decide
theorem test_illformed_mul_dest : (Instr.mul 8 0).wellFormed = false := by decide
theorem test_illformed_mul_src : (Instr.mul 0 8).wellFormed = false := by decide
theorem test_illformed_add_dest : (Instr.add 255 7).wellFormed = false := by decide
theorem test_illformed_add_src : (Instr.add 7 255).wellFormed = false := by decide
theorem test_illformed_push : (Instr.push 8).wellFormed = false := by decide
theorem test_illformed_pop : (Instr.pop 8).wellFormed = false := by decide
theorem test_illformed_call : (Instr.call 8).wellFormed = false := by decide
theorem test_wellformed_ldi_any_immediate : (Instr.ldi 7 255).wellFormed = true := by decide

/-! ### One step, at most two tests an instruction -/

/-- V2. -/
theorem test_hlt_ignores_operands :
    (stepped (runningAt 5 [0x01, 0xFF, 0xFF])).status = .halted ∧
    (stepped (runningAt 5 [0x01, 0xFF, 0xFF])).pc = 5 := by decide
/-- V4. -/
theorem test_hlt_at_254_faults :
    (stepped (runningAt 254 [0x01])).fault = some (.outOfRange 254 (some 0x01) .mem 256) := by decide
/-- V16. -/
theorem test_ldi_at_253 :
    (stepped (runningAt 253 [0x82, 0x01, 0x09])).regs[1] = 9 ∧
    (stepped (runningAt 253 [0x82, 0x01, 0x09])).pc = 256 := by decide
/-- V15. -/
theorem test_ldi_index_not_masked :
    (stepped (runningAt 0 [0x82, 0xFF, 0x00])).fault = some (.outOfRange 0 (some 0x82) .reg 255) := by decide
/-- V23 with register 7, V21. -/
theorem test_prn_register_seven :
    (stepped (runningAt 0 [0x47, 0x07, 0x99])).out = [244] ∧
    (stepped (runningAt 0 [0x47, 0x07, 0x99])).pc = 2 := by decide
/-- V25. -/
theorem test_prn_bad_index_emits_nothing :
    (stepped (runningAt 0 [0x47, 0x08])).out = [] ∧
    (stepped (runningAt 0 [0x47, 0x08])).status = .faulted := by decide
/-- V33. -/
theorem test_mul_wraps :
    (stepped { runningAt 0 [0xA2, 0x01, 0x00] with regs := #v[0xFF, 2, 0, 0, 0, 0, 0, 0xF4] }).regs
      = #v[0xFF, 0xFE, 0, 0, 0, 0, 0, 0xF4] := by decide
/-- V37. -/
theorem test_mul_into_register_seven :
    (stepped { runningAt 0 [0xA2, 0x07, 0x00] with regs := #v[5, 0, 0, 0, 0, 0, 0, 0xF4] }).regs[7] = 0xC4 ∧
    (stepped { runningAt 0 [0xA2, 0x07, 0x00] with regs := #v[5, 0, 0, 0, 0, 0, 0, 0xF4] }).sp = 0xF4 := by
  decide
/-- V32. -/
theorem test_add_wraps :
    (stepped { runningAt 0 [0xA0, 0x01, 0x00] with regs := #v[0xFF, 2, 0, 0, 0, 0, 0, 0xF4] }).regs
      = #v[0xFF, 1, 0, 0, 0, 0, 0, 0xF4] := by decide
/-- V40: both bad, A is reported. -/
theorem test_add_reports_a_first :
    (stepped (runningAt 0 [0xA0, 0x09, 0x0A])).fault = some (.outOfRange 0 (some 0xA0) .reg 9) := by decide
/-- V51. -/
theorem test_push_register_seven :
    (stepped (runningAt 0 [0x45, 0x07])).mem.read 0xF3 = 0xF4 ∧
    (stepped (runningAt 0 [0x45, 0x07])).sp = 0xF3 := by decide
/-- V54. -/
theorem test_push_at_zero_does_not_wrap :
    (stepped { runningAt 0x10 [0x45, 0x00] with sp := 0 }).fault
      = some (.outOfRange 0x10 (some 0x45) .mem (-1)) ∧
    (stepped { runningAt 0x10 [0x45, 0x00] with sp := 0 }).sp = 0 := by decide
/-- V66. -/
theorem test_pop_own_operand_byte :
    (stepped { runningAt 0 [0x46, 0x01] with sp := 1 }).regs[1] = 1 ∧
    (stepped { runningAt 0 [0x46, 0x01] with sp := 1 }).sp = 2 := by decide
/-- V63. -/
theorem test_pop_at_top :
    (stepped { runningAt 0 [0x46, 0x00] with sp := 256 }).fault
      = some (.outOfRange 0 (some 0x46) .mem 256) := by decide
/-- V78: the push overwrites CALL's own operand byte. -/
theorem test_call_overwriting_itself :
    (stepped { runningAt 6 [0x50, 0x01] with sp := 8, regs := #v[0, 0x0B, 0, 0, 0, 0, 0, 0xF4] }).mem.read 7 = 8 ∧
    (stepped { runningAt 6 [0x50, 0x01] with sp := 8, regs := #v[0, 0x0B, 0, 0, 0, 0, 0, 0xF4] }).pc = 0x0B := by
  decide
/-- V72. -/
theorem test_call_at_253 :
    (stepped (runningAt 253 [0x50, 0x00])).mem.read 0xF3 = 0xFF ∧
    (stepped (runningAt 253 [0x50, 0x00])).pc = 0 := by decide
/-- V80. -/
theorem test_ret :
    (stepped { runningAt 0x0E [0x11, 0x08, 0x08] with
      sp := 0xF3, mem := Memory.place (Memory.place [] 0x0E [0x11, 8, 8]) 0xF3 [8] }).pc = 8 := by decide
/-- V82. -/
theorem test_ret_at_top :
    (stepped { runningAt 0x0E [0x11] with sp := 256 }).fault
      = some (.outOfRange 0x0E (some 0x11) .mem 256) := by decide
/-- V6. -/
theorem test_fetch_at_256 :
    (stepped (runningAt 256 [])).fault = some (.outOfRange 256 none .mem 256) := by decide
/-- V104. -/
theorem test_illegal_at_253 :
    (stepped (runningAt 253 [0xFF])).fault = some (.illegal 253 0xFF) := by decide
/-- R92: the form of the output. -/
theorem test_render : renderLines [8, 27] = "8\n27\n" := by decide
/-- After `withFetchWord` on the reset state the next step runs the word (log 2). -/
theorem test_fetch_word_runs :
    (stepped (State.reset.withFetchWord 24 0x080082)).regs[0] = 8 := by decide
/-- R23: the reset state is Idle, and a step of it changes nothing (log 1). -/
theorem test_idle_step : stepped State.reset = State.reset := by decide

/-! ### Witnesses: a concrete state and operands that meet the hypotheses of each statement, clause by
clause, at the bounds of their ranges -/

/-- A Running state with register 7 holding 1, `pc` and `sp` as given, and `bytes` at `pc`. -/
def witnessState (pc sp : Nat) (bytes : List Byte) : State :=
  { runningAt pc bytes with sp := sp, regs := #v[0, 0, 0, 0, 0, 0, 0, 1] }

theorem witness_DecoderRejectsExactlyTheOther247Bytes :
    (∃ i, decode 0x11 0 0 = .ok i) ∧ (0x11 : Byte) ∈ opcodeBytes ∧
    decode 0x12 0 0 = .error (.illegalOpcode 0x12) ∧ (0x12 : Byte) ∉ opcodeBytes :=
  ⟨⟨_, rfl⟩, by decide, by decide, by decide⟩

theorem witness_DecodeAndEncodeAgree :
    encode (.ldi 255 255) ++ [] = 0x82 :: 255 :: 255 :: [] ∧
    encode (.call 8) ++ [3] = 0x50 :: 8 :: 3 :: [] ∧ encode .ret ++ [7, 9, 1] = 0x11 :: 7 :: 9 :: [1] ∧
    decode 0x50 8 3 = .ok (.call 8) := by decide

theorem witness_StepRunsTheDecodedInstruction :
    (runningAt 253 [0x82, 7, 255]).status = .running ∧ (runningAt 253 [0x82, 7, 255]).pc + 2 < 256 ∧
    decode ((runningAt 253 [0x82, 7, 255]).mem.read 253) ((runningAt 253 [0x82, 7, 255]).mem.read 254)
      ((runningAt 253 [0x82, 7, 255]).mem.read 255) = .ok (.ldi 7 255) := by decide

theorem witness_InstructionStoredAtPcIsTheOneThatRuns :
    (runningAt 253 [0x82, 7, 255]).status = .running ∧ (runningAt 253 [0x82, 7, 255]).pc + 2 < 256 ∧
    ∀ (k : Nat) (h : k < (encode (.ldi 7 255)).length),
      (runningAt 253 [0x82, 7, 255]).mem.read ((runningAt 253 [0x82, 7, 255]).pc + k)
        = (encode (.ldi 7 255))[k] := by decide

theorem witness_PlacedTableWordRunsNext :
    decodeTableWord 24 0x080082 = some (.ldi 0 8) ∧ (runningAt 253 []).pc + 2 < 256 ∧
    252 < ((runningAt 253 []).withFetchWord 24 0x080082).pc ∧
    ((runningAt 253 []).withFetchWord 24 0x080082).pc + 2 < 256 := by decide

theorem witness_HltHaltsWithPcOnItsOwnByte :
    (runningAt 253 [1]).status = .running ∧ (runningAt 253 [1]).mem.read (runningAt 253 [1]).pc = 0x01 ∧
    (runningAt 253 [1]).pc ≤ 253 ∧
    (runningAt 254 [1]).mem.read (runningAt 254 [1]).pc = 0x01 ∧ (runningAt 254 [1]).pc = 254 ∧
    (runningAt 255 [1]).mem.read (runningAt 255 [1]).pc = 0x01 ∧ (runningAt 255 [1]).pc = 255 ∧
    (∃ t, exec (.prn 7) (runningAt 253 [1]) = .next t) ∧ Instr.prn 7 ≠ .hlt ∧
    (∃ t, step (runningAt 253 [1]) = .next t ∧ t.status ≠ .running ∧ t.status ≠ .faulted) :=
  ⟨rfl, by decide, by decide, by decide, by decide, by decide, by decide, ⟨_, rfl⟩, by decide,
    ⟨_, rfl, nofun, nofun⟩⟩

theorem witness_LdiLoadsTheImmediateByte : (7 : Byte).toNat < 8 ∧ 8 ≤ (8 : Byte).toNat := by decide

theorem witness_PrnEmitsTheRegister : (7 : Byte).toNat < 8 ∧ 8 ≤ (8 : Byte).toNat := by decide

theorem witness_MulWritesTheProductModulo256 :
    ((7 : Byte).toNat < 8 ∧ (0 : Byte).toNat < 8) ∧ 8 ≤ (8 : Byte).toNat ∧
    ((7 : Byte).toNat < 8 ∧ 8 ≤ (8 : Byte).toNat) := by decide

theorem witness_AddWritesTheSumModulo256 :
    ((0 : Byte).toNat < 8 ∧ (7 : Byte).toNat < 8) ∧ 8 ≤ (8 : Byte).toNat ∧
    ((7 : Byte).toNat < 8 ∧ 8 ≤ (8 : Byte).toNat) := by decide

theorem witness_PushStoresBelowTheStackPointer :
    ((7 : Byte).toNat < 8 ∧ 1 ≤ (witnessState 0 1 []).sp ∧ (witnessState 0 1 []).sp ≤ 256) ∧
    (1 ≤ (witnessState 0 256 []).sp ∧ (witnessState 0 256 []).sp ≤ 256) ∧ 8 ≤ (8 : Byte).toNat ∧
    (witnessState 0 0 []).sp = 0 ∧ 256 < (witnessState 0 257 []).sp := by decide

theorem witness_PopLoadsTheCellAtTheStackPointer :
    ((7 : Byte).toNat < 8 ∧ (witnessState 0 255 []).sp < 256) ∧ 8 ≤ (8 : Byte).toNat ∧
    256 ≤ (witnessState 0 256 []).sp := by decide

theorem witness_CallPushesTheReturnAddressAndJumps :
    ((7 : Byte).toNat < 8 ∧ 1 ≤ (witnessState 253 1 []).sp ∧ (witnessState 253 1 []).sp ≤ 256 ∧
      (witnessState 253 1 []).pc + 2 ≤ 255) ∧ (witnessState 253 256 []).sp ≤ 256 ∧ 8 ≤ (8 : Byte).toNat ∧
    (witnessState 253 0 []).sp = 0 ∧ 256 < (witnessState 253 257 []).sp ∧
    255 < (witnessState 254 1 []).pc + 2 := by decide

theorem witness_RetJumpsToThePoppedByte :
    (witnessState 0 255 []).sp < 256 ∧ 256 ≤ (witnessState 0 256 []).sp := by decide

theorem witness_LdiMulAddFrame :
    (∃ t, exec (.ldi 7 255) (witnessState 0 0 []) = .next t) ∧ (Instr.ldi 7 255).wellFormed = true ∧
    (∃ t, exec (.mul 7 0) (witnessState 0 0 []) = .next t) ∧ (Instr.mul 7 0).wellFormed = true ∧
    (∃ t, exec (.add 7 8) (witnessState 0 0 []) = .next t) ∧ (Instr.add 7 8).wellFormed = false :=
  ⟨⟨_, rfl⟩, rfl, ⟨_, rfl⟩, rfl, ⟨_, rfl⟩, rfl⟩

theorem witness_PushCallFrame :
    (∃ t, exec (.push 7) (witnessState 0 1 []) = .next t) ∧ (witnessState 0 1 []).pushAddr = 0 ∧
    ((1 : Nat) : Int) ≠ 0 ∧ ((7 : Byte).toNat < 8 ∧ 1 ≤ (witnessState 0 1 []).sp ∧ (witnessState 0 1 []).sp ≤ 256) ∧
    (∃ t, exec (.call 7) (witnessState 0 0 []) = .next t) ∧
    ¬((7 : Byte).toNat < 8 ∧ 1 ≤ (witnessState 0 0 []).sp ∧ (witnessState 0 0 []).sp ≤ 256) :=
  ⟨⟨_, rfl⟩, rfl, by decide, by decide, ⟨_, rfl⟩, by decide⟩

theorem witness_PopRetFrame :
    (∃ t, exec (.pop 7) (witnessState 0 255 []) = .next t) ∧ Instr.pop 7 ≠ .pop 6 ∧
    ((Instr.pop 7).wellFormed = true ∧ (witnessState 0 255 []).sp < 256) ∧
    (∃ t, exec .ret (witnessState 0 256 []) = .next t) ∧
    ¬(Instr.ret.wellFormed = true ∧ (witnessState 0 256 []).sp < 256) :=
  ⟨⟨_, rfl⟩, by decide, by decide, ⟨_, rfl⟩, by decide⟩

theorem witness_HltPrnFrame :
    (∃ t, exec .hlt (witnessState 0 0 []) = .next t) ∧
    (∃ t, exec (.prn 7) (witnessState 0 0 []) = .next t) ∧ (7 : Byte).toNat < 8 ∧
    (∃ t, exec (.prn 8) (witnessState 0 0 []) = .next t) ∧ 8 ≤ (8 : Byte).toNat :=
  ⟨⟨_, rfl⟩, ⟨_, rfl⟩, by decide, ⟨_, rfl⟩, by decide⟩

theorem witness_EachHandlerSetsTheNextPc :
    (witnessState 253 1 []).status = .running ∧
    (∃ t, exec (.call 7) (witnessState 253 1 []) = .next t ∧ t.status ≠ .faulted) ∧
    (∃ t, exec (.call 7) (witnessState 253 0 []) = .next t ∧ t.status = .faulted) ∧
    253 < (witnessState 254 1 []).pc ∧
    (witnessState 253 1 [0x83]).mem.read (witnessState 253 1 [0x83]).pc ∉ opcodeBytes :=
  ⟨rfl, ⟨_, rfl, by decide⟩, ⟨_, rfl, rfl⟩, by decide, by decide⟩

theorem witness_SequentialInstructionAdvancesByItsLength :
    (witnessState 253 1 []).status = .running ∧
    (∃ t, exec (.push 7) (witnessState 253 1 []) = .next t ∧ t.status = .running) ∧
    Instr.push 7 ≠ .ret ∧ ∀ a, Instr.push 7 ≠ .call a :=
  ⟨rfl, ⟨_, rfl, rfl⟩, by decide, nofun⟩

theorem witness_RegistersReadAndWrittenByEachInstruction :
    (witnessState 0 0 []).status = .running ∧
    (∃ t, exec (.add 6 7) (witnessState 0 0 []) = .next t ∧ t.status ≠ .faulted) ∧
    (∀ w ∈ regsWritten (.add 6 7), w.toNat ≠ (7 : Fin 8).val) ∧
    (∀ r : Fin 8, (∃ w ∈ regsRead (.add 6 7), w.toNat = r.val) →
      (#v[9, 9, 9, 9, 9, 9, 0, 1] : Vector Byte 8)[r] = (witnessState 0 0 []).regs[r]) ∧
    (∃ w ∈ regsWritten (.add 6 7), w.toNat = (6 : Fin 8).val) ∧
    (∃ t, step (witnessState 253 0 [0xA0, 6, 7]) = .next t) ∧
    (witnessState 253 0 [0xA0, 6, 7]).fetchInstr = .ok (.add 6 7) ∧
    (∃ t, step (witnessState 254 0 [0xA0, 6]) = .next t) ∧
    (∀ i, (witnessState 254 0 [0xA0, 6]).fetchInstr ≠ .ok i) :=
  ⟨rfl, ⟨_, rfl, by decide⟩, by decide, by decide, by decide, ⟨_, rfl⟩, rfl, ⟨_, rfl⟩, fun _ h => nomatch h⟩

theorem witness_RegisterSevenIsNotTheStackPointer :
    (∃ t, exec (.push 7) (witnessState 0 1 []) = .next t) ∧ 7 ∉ regsWritten (.push 7) ∧
    (∃ t, exec (.ldi 7 0) (witnessState 0 1 []) = .next t) ∧
    (∃ t, exec (.add 7 0) (witnessState 0 1 []) = .next t) ∧
    (∃ t, exec (.mul 7 0) (witnessState 0 1 []) = .next t) ∧ (witnessState 0 255 []).sp < 256 ∧
    (∃ t, exec (.call 7) (witnessState 0 256 []) = .next t ∧ t.status = .running) ∧
    (∃ t, exec .ret (witnessState 0 255 []) = .next t ∧ t.status = .running) ∧
    (witnessState 0 255 []).status = .running :=
  ⟨⟨_, rfl⟩, by decide, ⟨_, rfl⟩, ⟨_, rfl⟩, ⟨_, rfl⟩, by decide, ⟨_, rfl, rfl⟩, ⟨_, rfl, rfl⟩, rfl⟩

theorem witness_OnlyPushAndCallWriteMemory :
    ∃ t, step (witnessState 253 1 [0x45, 7]) = .next t ∧
      t.mem.read 0 ≠ (witnessState 253 1 [0x45, 7]).mem.read 0 :=
  ⟨_, rfl, by decide⟩

theorem witness_StackPointerMovesOnlyByStackInstructions :
    (∃ t, step (witnessState 253 1 [0x50, 7]) = .next t ∧ t.sp + 1 = (witnessState 253 1 [0x50, 7]).sp) ∧
    (∃ t, step (witnessState 253 255 [0x11]) = .next t ∧ t.sp = (witnessState 253 255 [0x11]).sp + 1) :=
  ⟨⟨_, rfl, rfl⟩, ⟨_, rfl, rfl⟩⟩

theorem witness_OutputGrowsOnlyByPrn :
    ∃ t, step (witnessState 253 1 [0x47, 7]) = .next t ∧ t.out ≠ (witnessState 253 1 [0x47, 7]).out :=
  ⟨_, rfl, by decide⟩

theorem witness_OnlyHltHaltsAndOnlyErrorsFault :
    (∃ t, step State.reset = .next t) ∧ State.reset.status ≠ .running ∧
    (witnessState 253 1 [1]).status = .running ∧
    (∃ t, step (witnessState 253 1 [1]) = .next t ∧ t.status = .halted ∧ t.status ≠ .faulted) ∧
    (∃ t, step (witnessState 254 1 [1]) = .next t ∧ t.status = .faulted) :=
  ⟨⟨_, rfl⟩, by decide, rfl, ⟨_, rfl, rfl, by decide⟩, ⟨_, rfl, rfl⟩⟩

theorem witness_ErrorsArePrecise :
    (witnessState 253 0 [0x45, 7]).status = .running ∧
    ∃ t, step (witnessState 253 0 [0x45, 7]) = .next t ∧ t.status = .faulted :=
  ⟨rfl, _, rfl, rfl⟩

theorem witness_FetchReadsThreeBytesWhateverTheOpcode :
    (witnessState 256 0 []).status = .running ∧ 256 ≤ (witnessState 256 0 []).pc ∧
    (witnessState 254 0 []).pc = 254 ∧ (witnessState 255 0 []).pc = 255 ∧
    (witnessState 253 0 [0x45, 7]).pc ≤ 253 ∧
    (∃ t r, step (witnessState 253 0 [0x45, 7]) = .next t ∧ t.status = .faulted ∧ t.fault = some r) :=
  ⟨rfl, by decide, rfl, rfl, by decide, _, _, rfl, rfl, rfl⟩

theorem witness_IllegalOpcodeStopsTheRun :
    (witnessState 253 0 [0x83]).status = .running ∧ (witnessState 253 0 [0x83]).pc ≤ 253 ∧
    (witnessState 253 0 [0x83]).mem.read (witnessState 253 0 [0x83]).pc ∉ opcodeBytes := by decide

theorem witness_HandlersRaiseOnlyOutOfRangeAddress :
    (witnessState 0 0 []).status = .running ∧
    (∃ t r, exec (.prn 8) (witnessState 0 0 []) = .next t ∧ t.status = .faulted ∧ t.fault = some r) ∧
    (7 : Byte).toNat < 8 ∧
    (∃ t r, step (witnessState 253 0 [0x83, 7]) = .next t ∧ t.status = .faulted ∧ t.fault = some r ∧
      r.kind = .illegalInstruction) :=
  ⟨rfl, ⟨_, _, rfl, rfl, rfl⟩, by decide, ⟨_, _, rfl, rfl, rfl, rfl⟩⟩

/-- One state for each row of 60_exceptions.md R141 and one for R142. -/
theorem witness_ErrorTableIsComplete :
    ((witnessState 256 256 []).status = .running ∧ (witnessState 256 256 []).pc ≤ 256 ∧
      (witnessState 256 256 []).sp ≤ 256) ∧
    (∃ r, (witnessState 256 256 []).Reports r) ∧ (∃ r, (witnessState 255 256 [1]).Reports r) ∧
    (∃ r, (witnessState 254 256 [1]).Reports r) ∧ (∃ r, (witnessState 253 256 [0x83]).Reports r) ∧
    (∃ r, (witnessState 253 256 [0x46, 8]).Reports r) ∧ (∃ r, (witnessState 253 256 [0xA0, 7, 8]).Reports r) ∧
    (∃ r, (witnessState 253 0 [0x50, 7]).Reports r) ∧ (∃ r, (witnessState 253 256 [0x46, 7]).Reports r) ∧
    (∃ r, (witnessState 253 256 [0x11]).Reports r) ∧
    (∃ t, step (witnessState 253 256 [0x11]) = .next t ∧ t.status = .faulted) :=
  ⟨by decide, ⟨_, .fetchOpcode rfl⟩, ⟨_, .fetchOperandA rfl⟩, ⟨_, .fetchOperandB rfl⟩,
    ⟨_, .illegalOpcode (by decide) (by decide)⟩, ⟨_, .registerA (by decide) (by decide) (by decide)⟩,
    ⟨_, .registerB (by decide) (by decide) (by decide) (by decide)⟩,
    ⟨_, .pushAtZero (by decide) (by decide) (by decide) rfl⟩,
    ⟨_, .popAtTop (by decide) (by decide) (by decide) rfl⟩, ⟨_, .retAtTop (by decide) (by decide) rfl⟩,
    ⟨_, rfl, rfl⟩⟩

theorem witness_NoCycleRunsUnlessRunning :
    State.reset.status ≠ .running ∧ (witnessState 0 0 []).halt.status ≠ .running ∧
    (stepped (witnessState 256 0 [])).status ≠ .running := by decide

theorem witness_RunEndsOnlyByHltOrByAnError :
    (witnessState 253 0 [1]).status = .running ∧
    (∃ t, Sys2Proof.core.run 1 (witnessState 253 0 [1]) = .next t ∧ t.status ≠ .running) ∧
    (∃ t, Sys2Proof.core.run 2 (witnessState 253 0 [0x83]) = .next t ∧ t.status ≠ .running) :=
  ⟨rfl, ⟨_, rfl, by decide⟩, ⟨_, rfl, by decide⟩⟩

/-- The invariant at a Running state at the top of its ranges. -/
theorem witness_StepKeepsTheInvariant :
    (witnessState 256 256 []).Inv ∧ ∃ t, step (witnessState 256 256 []) = .next t :=
  ⟨⟨by decide, by decide, by decide, by decide, fun _ => rfl, nofun⟩, _, rfl⟩

theorem witness_TransactionsKeepTheInvariant : (witnessState 253 0 [1]).halt.Inv :=
  ⟨by decide, by decide, by decide, by decide, fun _ => rfl, nofun⟩

theorem witness_ResetStateIsTheTable : (255 : Nat) < 256 := by decide

theorem witness_LoadPlacesTheImageFromZero :
    State.reset.status = .idle ∧ (List.replicate 256 (1 : Byte)).length ≤ 256 ∧
    255 < (List.replicate 256 (1 : Byte)).length ∧ ([] : List Byte).length ≤ 0 ∧
    256 < (List.replicate 257 (1 : Byte)).length := by
  simp only [List.length_replicate]; decide

theorem witness_HostActsOnlyOnAnIdleMachine :
    State.reset.status = .idle ∧ (witnessState 0 0 []).status ≠ .idle ∧
    (witnessState 0 0 []).halt.status ≠ .idle := by decide

theorem witness_FirstCycleRunsTheFirstLoadedInstruction :
    (encode (.ldi 7 255) ++ List.replicate 253 0).length ≤ 256 := by
  rw [List.length_append, List.length_replicate]; decide

theorem witness_AddAndMulObeyRingLaws :
    ((7 : Byte).toNat < 8 ∧ (6 : Byte).toNat < 8 ∧ (0 : Byte).toNat < 8) ∧
    ({ witnessState 0 0 [] with regs := #v[0, 0, 0, 0, 0, 0, 1, 0] } : State).regs[7] = (witnessState 0 0 []).regs[6] ∧
    ({ witnessState 0 0 [] with regs := #v[0, 0, 0, 0, 0, 0, 1, 0] } : State).regs[6] = (witnessState 0 0 []).regs[7] ∧
    (7 : Byte) ≠ 6 ∧ (6 : Byte) ≠ 0 ∧ (7 : Byte) ≠ 0 := by decide

theorem witness_PopUndoesPush :
    ((7 : Byte).toNat < 8 ∧ (0 : Byte).toNat < 8 ∧ 1 ≤ (witnessState 0 1 []).sp ∧
      (witnessState 0 256 []).sp ≤ 256) ∧
    (∃ t, exec (.push 7) (witnessState 0 1 []) = .next t ∧
      ({ witnessState 9 0 [1] with mem := [(0, 1)] } : State).sp = t.sp ∧
      ({ witnessState 9 0 [1] with mem := [(0, 1)] } : State).mem.read 0 = t.mem.read 0) ∧
    2 ≤ (witnessState 0 2 []).sp ∧ (witnessState 0 2 []).sp ≤ 256 :=
  ⟨by decide, ⟨_, rfl, rfl, by decide⟩, by decide, by decide⟩

theorem witness_RetReturnsBehindTheCall :
    ((7 : Byte).toNat < 8 ∧ 1 ≤ (witnessState 253 1 []).sp ∧ (witnessState 253 256 []).sp ≤ 256 ∧
      (witnessState 253 1 []).pc + 2 ≤ 255) ∧
    (∃ t, exec (.call 7) (witnessState 253 1 []) = .next t ∧
      ({ witnessState 9 0 [1] with mem := [(0, 255)] } : State).sp = t.sp ∧
      ({ witnessState 9 0 [1] with mem := [(0, 255)] } : State).mem.read 0 = t.mem.read 0) :=
  ⟨by decide, _, rfl, rfl, by decide⟩

theorem witness_LdiThenPrnEmitsTheValue : (7 : Byte).toNat < 8 := by decide

theorem witness_EachPrnAddsOneDecimalLine : (7 : Byte).toNat < 8 := by decide

/-- V58 (a push onto the next opcode) and V78 (a call overwriting its own operand). -/
theorem witness_StoreIsSeenByTheNextFetch :
    (∃ t, step (witnessState 251 254 [0x45, 7]) = .next t ∧ t.status = .running ∧ t.pc ≤ 253 ∧
      t.pc + 1 = 254) ∧ (witnessState 251 254 [0x45, 7]).status = .running ∧
    (witnessState 251 254 [0x45, 7]).mem.read 251 = 0x45 ∧
    decode 1 0 0 = .ok .hlt ∧
    (∃ t, step (witnessState 253 255 [0x50, 7]) = .next t ∧ t.status = .running ∧ t.pc ≤ 253) ∧
    (witnessState 253 255 [0x50, 7]).mem.read 253 = 0x50 :=
  ⟨⟨_, rfl, rfl, by decide, rfl⟩, rfl, by decide, by decide, ⟨_, rfl, rfl, by decide⟩, by decide⟩

theorem witness_MemoryReadsAndWritesOneBoundedCell :
    (0 ≤ (0 : Int) ∧ (0 : Int) < 256) ∧ (0 ≤ (255 : Int) ∧ (255 : Int) < 256) ∧ (254 : Int) ≠ 255 ∧
    ¬(0 ≤ (-1 : Int) ∧ (-1 : Int) < 256) ∧ ¬(0 ≤ (256 : Int) ∧ (256 : Int) < 256) := by decide

theorem witness_CanonicalMemoriesThatReadAlikeAreEqual :
    Memory.wf [(0, 1), (255, 2)] ∧ Memory.wf (Memory.place [] 0 [1]) ∧
    Memory.place (Memory.place [] 255 [2]) 0 [1] = [(0, 1), (255, 2)] := by decide

end Sys2Proof.Tests
end

/-! SUPPORT. What one instruction can do, said once for all nine: it completes with the effect of its row, or
it raises one report and changes nothing else. The rules of 10_state.md over all steps follow from it. -/

namespace Sys2Proof

/-- The instruction with other operand bytes; an operand it does not have is ignored (R51, R52). -/
def Instr.withOperands : Instr → Byte → Byte → Instr
  | .hlt, _, _ => .hlt
  | .ldi _ _, a, b => .ldi a b
  | .prn _, a, _ => .prn a
  | .mul _ _, a, b => .mul a b
  | .add _ _, a, b => .add a b
  | .push _, a, _ => .push a
  | .pop _, a, _ => .pop a
  | .call _, a, _ => .call a
  | .ret, _, _ => .ret

/-- The register operand A of an instruction that has one (R54). -/
def Instr.regA : Instr → Option Byte
  | .hlt | .ret => none
  | .ldi a _ | .prn a | .mul a _ | .add a _ | .push a | .pop a | .call a => some a

/-- The operands of a decoded instruction are the operand bytes it was decoded from. -/
theorem decode_ok_withOperands {ir a b : Byte} {i : Instr} (h : decode ir a b = .ok i) :
    i = i.withOperands a b := by
  rcases decode_cases ir a b with ⟨-, g⟩ | ⟨-, g⟩ | ⟨-, g⟩ | ⟨-, g⟩ | ⟨-, g⟩ | ⟨-, g⟩ | ⟨-, g⟩ |
    ⟨-, g⟩ | ⟨-, g⟩ | ⟨-, g⟩ <;> rw [g] at h <;> cases h <;> rfl

/-- Operand A of a decoded instruction is the second byte it was decoded from. -/
theorem decode_ok_regA {ir a b c : Byte} {i : Instr} (h : decode ir a b = .ok i) (hc : i.regA = some c) :
    c = a := by
  rw [decode_ok_withOperands h] at hc
  cases i <;> cases hc <;> rfl

theorem opcode_eq_hlt_iff (i : Instr) : i.opcode = 0x01 ↔ i = .hlt := by
  cases i with
  | hlt => exact iff_of_true rfl rfl
  | _ => exact iff_of_false (by simp only [Instr.opcode]; decide) nofun

theorem opcode_of_regA {i : Instr} {a : Byte} (h : i.regA = some a) :
    i.opcode ∈ ([0x82, 0x47, 0xA2, 0xA0, 0x45, 0x46, 0x50] : List Byte) := by
  cases i with
  | hlt | ret => cases h
  | _ => simp only [Instr.opcode]; decide

end Sys2Proof

namespace Sys2Proof.Machine

/-- `s.Completes i t`: instruction `i` passes all its checks in `s` and leaves `t`, the effect lines of R85,
R90, R91, R103, R104, R116, R117, R125, R126. `State.Completes.exec_eq` and `exec_inv` tie it to `exec`. -/
inductive State.Completes (s : State) : Instr → State → Prop where
  | hlt : s.Completes .hlt s.halt
  | ldi {a b : Byte} (ha : a.toNat < 8) :
      s.Completes (.ldi a b) { s with regs := s.regs.set a.toNat b, pc := s.pc + 3 }
  | prn {a : Byte} (ha : a.toNat < 8) :
      s.Completes (.prn a) { s with out := s.out ++ [s.regs[a.toNat]], pc := s.pc + 2 }
  | mul {a b : Byte} (ha : a.toNat < 8) (hb : b.toNat < 8) :
      s.Completes (.mul a b)
        { s with regs := s.regs.set a.toNat (aluResult .mul s.regs[a.toNat] s.regs[b.toNat]), pc := s.pc + 3 }
  | add {a b : Byte} (ha : a.toNat < 8) (hb : b.toNat < 8) :
      s.Completes (.add a b)
        { s with regs := s.regs.set a.toNat (aluResult .add s.regs[a.toNat] s.regs[b.toNat]), pc := s.pc + 3 }
  | push {a : Byte} (ha : a.toNat < 8) (hsp : 1 ≤ s.sp ∧ s.sp ≤ 256) :
      s.Completes (.push a)
        { s with mem := s.mem.write (s.sp - 1) s.regs[a.toNat], sp := s.sp - 1, pc := s.pc + 2 }
  | pop {a : Byte} (ha : a.toNat < 8) (hsp : s.sp < 256) :
      s.Completes (.pop a)
        { s with regs := s.regs.set a.toNat (s.mem.read s.sp), sp := s.sp + 1, pc := s.pc + 2 }
  | call {a : Byte} (ha : a.toNat < 8) (hsp : 1 ≤ s.sp ∧ s.sp ≤ 256) (hpc : s.pc + 2 < 256) :
      s.Completes (.call a)
        { s with mem := s.mem.write (s.sp - 1) (BitVec.ofNat 8 (s.pc + 2)), sp := s.sp - 1,
                 pc := s.regs[a.toNat].toNat }
  | ret (hsp : s.sp < 256) :
      s.Completes .ret { s with sp := s.sp + 1, pc := (s.mem.read s.sp).toNat }

/-- `s.Raises i r`: the first check of instruction `i` that fails in `s` raises the report `r`, the handlers'
rows of 60_exceptions.md R141. `State.Raises.exec_eq` and `exec_inv` tie it to `exec`. -/
inductive State.Raises (s : State) : Instr → ErrorReport → Prop where
  | registerA {i : Instr} {a : Byte} (hi : i.regA = some a) (ha : 8 ≤ a.toNat) :
      s.Raises i (.outOfRange s.pc (some i.opcode) .reg a.toNat)
  | registerB {i : Instr} {a b : Byte} (hi : i = .mul a b ∨ i = .add a b) (ha : a.toNat < 8)
      (hb : 8 ≤ b.toNat) : s.Raises i (.outOfRange s.pc (some i.opcode) .reg b.toNat)
  | push {i : Instr} {a : Byte} (hi : i = .push a ∨ i = .call a) (ha : a.toNat < 8)
      (hsp : ¬(1 ≤ s.sp ∧ s.sp ≤ 256)) :
      s.Raises i (.outOfRange s.pc (some i.opcode) .mem ((s.sp : Int) - 1))
  | pop {a : Byte} (ha : a.toNat < 8) (hsp : 256 ≤ s.sp) :
      s.Raises (.pop a) (.outOfRange s.pc (some 0x46) .mem s.sp)
  | ret (hsp : 256 ≤ s.sp) : s.Raises .ret (.outOfRange s.pc (some 0x11) .mem s.sp)

variable {i : Instr} {s t : State} {r : ErrorReport}

/-! ### Every next state of `exec` is one of the two -/

theorem State.Completes.exec_eq (h : s.Completes i t) : exec i s = .next t := by
  cases h with
  | hlt => rfl
  | ldi ha => rw [exec, execLdi, writeReg_ok _ _ ha]; rfl
  | prn ha => rw [exec, execPrn, readReg_ok _ ha]; rfl
  | mul ha hb => rw [exec, execMul, aluApply_ok _ _ ha hb]; rfl
  | add ha hb => rw [exec, execAdd, aluApply_ok _ _ ha hb]; rfl
  | push ha hsp => rw [exec, execPush, readReg_ok _ ha, orRaise_ok, pushByte_ok _ _ hsp]; rfl
  | pop ha hsp => rw [exec, execPop, checkReg_ok ha, orRaise_ok, popByte_ok _ hsp]; rfl
  | call ha hsp hpc =>
    rw [exec, execCall, readReg_ok _ ha, orRaise_ok, pushAddr_ok _ hsp, orRaise_ok, returnAddress_ok _ hpc]
    simp only [pushByte_ok _ _ hsp]; rfl
  | ret hsp => rw [exec, execRet, popByte_ok _ hsp]; rfl

/-- A register operand A out of range raises before anything else is looked at. -/
theorem exec_of_regA_error {a : Byte} (hi : i.regA = some a) (ha : 8 ≤ a.toNat) :
    exec i s = .next (s.faultedWith (.outOfRange s.pc (some i.opcode) .reg a.toNat)) := by
  cases i with
  | hlt => cases hi
  | ldi => cases hi; rw [exec, execLdi, writeReg_error _ _ ha]; rfl
  | prn => cases hi; rw [exec, execPrn, readReg_error _ ha]; rfl
  | mul => cases hi; rw [exec, execMul, aluApply_error_dest _ _ _ ha]; rfl
  | add => cases hi; rw [exec, execAdd, aluApply_error_dest _ _ _ ha]; rfl
  | push => cases hi; rw [exec, execPush, readReg_error _ ha]; rfl
  | pop => cases hi; rw [exec, execPop, checkReg_error ha]; rfl
  | call => cases hi; rw [exec, execCall, readReg_error _ ha]; rfl
  | ret => cases hi

theorem State.Raises.exec_eq (h : s.Raises i r) : exec i s = .next (s.faultedWith r) := by
  cases h with
  | registerA hi ha => exact exec_of_regA_error hi ha
  | registerB hi ha hb =>
    rcases hi with rfl | rfl
    · rw [exec, execMul, aluApply_error_src _ _ ha hb]; rfl
    · rw [exec, execAdd, aluApply_error_src _ _ ha hb]; rfl
  | push hi ha hsp =>
    rcases hi with rfl | rfl
    · rw [exec, execPush, readReg_ok _ ha, orRaise_ok, pushByte_error _ _ hsp]; rfl
    · rw [exec, execCall, readReg_ok _ ha, orRaise_ok, pushAddr_error _ hsp]; rfl
  | pop ha hsp => rw [exec, execPop, checkReg_ok ha, orRaise_ok, popByte_error _ hsp]; rfl
  | ret hsp => rw [exec, execRet, popByte_error _ hsp]; rfl

/-- An instruction that answers a next state completes or raises one report. -/
theorem exec_inv (h : exec i s = .next t) :
    s.Completes i t ∨ ∃ r, s.Raises i r ∧ t = s.faultedWith r := by
  cases i with
  | hlt => exact .inl (exec_hlt_inv h ▸ .hlt)
  | ldi a b =>
    obtain ⟨ha, rfl⟩ | ⟨ha, rfl⟩ := exec_ldi_inv h
    · exact .inl (.ldi ha)
    · exact .inr ⟨_, .registerA rfl ha, rfl⟩
  | prn a =>
    obtain ⟨ha, rfl⟩ | ⟨ha, rfl⟩ := exec_prn_inv h
    · exact .inl (.prn ha)
    · exact .inr ⟨_, .registerA rfl ha, rfl⟩
  | mul a b =>
    obtain ⟨ha, hb, rfl⟩ | ⟨ha, rfl⟩ | ⟨ha, hb, rfl⟩ := exec_mul_inv h
    · exact .inl (.mul ha hb)
    · exact .inr ⟨_, .registerA rfl ha, rfl⟩
    · exact .inr ⟨_, .registerB (.inl rfl) ha hb, rfl⟩
  | add a b =>
    obtain ⟨ha, hb, rfl⟩ | ⟨ha, rfl⟩ | ⟨ha, hb, rfl⟩ := exec_add_inv h
    · exact .inl (.add ha hb)
    · exact .inr ⟨_, .registerA rfl ha, rfl⟩
    · exact .inr ⟨_, .registerB (.inr rfl) ha hb, rfl⟩
  | push a =>
    obtain ⟨ha, h1, h2, rfl⟩ | ⟨ha, rfl⟩ | ⟨ha, hsp, rfl⟩ := exec_push_inv h
    · exact .inl (.push ha ⟨h1, h2⟩)
    · exact .inr ⟨_, .registerA rfl ha, rfl⟩
    · exact .inr ⟨_, .push (.inl rfl) ha hsp, rfl⟩
  | pop a =>
    obtain ⟨ha, hsp, rfl⟩ | ⟨ha, rfl⟩ | ⟨ha, hsp, rfl⟩ := exec_pop_inv h
    · exact .inl (.pop ha hsp)
    · exact .inr ⟨_, .registerA rfl ha, rfl⟩
    · exact .inr ⟨_, .pop ha hsp, rfl⟩
  | call a =>
    obtain ⟨ha, h1, h2, hpc, rfl⟩ | ⟨ha, rfl⟩ | ⟨ha, hsp, rfl⟩ := exec_call_inv h
    · exact .inl (.call ha ⟨h1, h2⟩ hpc)
    · exact .inr ⟨_, .registerA rfl ha, rfl⟩
    · exact .inr ⟨_, .push (.inr rfl) ha hsp, rfl⟩
  | ret =>
    obtain ⟨hsp, rfl⟩ | ⟨hsp, rfl⟩ := exec_ret_inv h
    · exact .inl (.ret hsp)
    · exact .inr ⟨_, .ret hsp, rfl⟩

/-! ### What a completed instruction does to each part of the state -/

theorem State.Completes.fault_eq (h : s.Completes i t) : t.fault = s.fault := by cases h <;> rfl

/-- HLT alone ends the run without an error (R17, R86). -/
theorem State.Completes.status_cases (h : s.Completes i t) (hs : s.status = .running) :
    (i ≠ .hlt ∧ t.status = .running) ∨ (i = .hlt ∧ t.status = .halted) := by
  cases h with
  | hlt => exact .inr ⟨rfl, rfl⟩
  | _ => exact .inl ⟨nofun, hs⟩

theorem State.Completes.not_faulted (h : s.Completes i t) (hs : s.status = .running) :
    t.status ≠ .faulted := by
  rcases h.status_cases hs with ⟨-, e⟩ | ⟨-, e⟩ <;> rw [e] <;> decide

/-- The opcode bytes of PUSH, CALL, POP and RET, the instructions that move `sp` (R16). -/
def stackOpcodes : List Byte := [0x45, 0x50, 0x46, 0x11]

/-- PUSH and CALL lower `sp` by one, POP and RET raise it by one (R16, R25), the others leave it. -/
theorem State.Completes.sp_cases (h : s.Completes i t) :
    (i.opcode ∉ stackOpcodes ∧ t.sp = s.sp) ∨
    ((i.opcode = 0x45 ∨ i.opcode = 0x50) ∧ t.sp + 1 = s.sp) ∨
    ((i.opcode = 0x46 ∨ i.opcode = 0x11) ∧ s.sp < 256 ∧ t.sp = s.sp + 1) := by
  cases h with
  | push _ hsp => exact .inr (.inl ⟨.inl rfl, by simp only; omega⟩)
  | call _ hsp _ => exact .inr (.inl ⟨.inr rfl, by simp only; omega⟩)
  | pop _ hsp => exact .inr (.inr ⟨.inl rfl, hsp, rfl⟩)
  | ret hsp => exact .inr (.inr ⟨.inr rfl, hsp, rfl⟩)
  | _ => exact .inl ⟨by simp only [Instr.opcode]; decide, rfl⟩

theorem exec_sp_of_not_stack (h : exec i s = .next t) (hi : i.opcode ∉ stackOpcodes) : t.sp = s.sp := by
  rcases exec_inv h with hc | ⟨_, -, rfl⟩
  · rcases hc.sp_cases with ⟨-, e⟩ | ⟨e | e, -⟩ | ⟨e | e, -⟩
    · exact e
    all_goals rw [e] at hi; exact absurd (by decide) hi
  · rfl

/-- Only a push stores, and only inside memory (R31). -/
theorem State.Completes.mem_cases (h : s.Completes i t) :
    t.mem = s.mem ∨ ∃ v, s.sp - 1 < 256 ∧ t.mem = s.mem.write (s.sp - 1) v := by
  cases h with
  | push _ hsp => exact .inr ⟨_, by omega, rfl⟩
  | call _ hsp _ => exact .inr ⟨_, by omega, rfl⟩
  | _ => exact .inl rfl

theorem State.Completes.out_cases (h : s.Completes i t) :
    t.out = s.out ∨ ∃ (a : Byte) (_ : a.toNat < 8), i = .prn a ∧ t.out = s.out ++ [s.regs[a.toNat]] := by
  cases h with
  | prn ha => exact .inr ⟨_, ha, rfl, rfl⟩
  | _ => exact .inl rfl

/-- An instruction that could be fetched leaves `pc` at most 256 (R14). -/
theorem State.Completes.pc_le (h : s.Completes i t) (hp : s.pc ≤ 253) : t.pc ≤ 256 := by
  cases h with
  | call => exact Nat.le_of_lt (BitVec.isLt _)
  | ret => exact Nat.le_of_lt (BitVec.isLt _)
  | _ => simp only [State.halt_pc]; omega

theorem State.Completes.regs_frame (h : s.Completes i t) (r : Fin 8)
    (hr : ∀ w ∈ regsWritten i, w.toNat ≠ r.val) : t.regs[r] = s.regs[r] := by
  cases h with
  | ldi ha | mul ha | add ha | pop ha =>
    exact Vector.getElem_set_ne ha r.isLt (hr _ (List.mem_singleton_self _))
  | _ => rfl

theorem exec_regs_frame (h : exec i s = .next t) (r : Fin 8)
    (hr : ∀ w ∈ regsWritten i, w.toNat ≠ r.val) : t.regs[r] = s.regs[r] := by
  rcases exec_inv h with hc | ⟨_, -, rfl⟩
  · exact hc.regs_frame r hr
  · rfl

/-! ### How an instruction depends on the registers -/

/-- The two register files hold the same values in the registers that the operand bytes name. -/
def RegsAgree (ops : List Byte) (v w : Vector Byte 8) : Prop :=
  ∀ r : Fin 8, (∃ o ∈ ops, o.toNat = r.val) → v[r] = w[r]

theorem RegsAgree.getElem_eq {ops : List Byte} {v w : Vector Byte 8} (h : RegsAgree ops v w) {a : Byte}
    (hm : a ∈ ops) (ha : a.toNat < 8) : v[a.toNat] = w[a.toNat] :=
  h ⟨a.toNat, ha⟩ ⟨a, hm, rfl⟩

theorem regsAgree_nil (v w : Vector Byte 8) : RegsAgree [] v w := fun _ ⟨_, hm, _⟩ => nomatch hm

theorem regsAgree_set (v w : Vector Byte 8) {a : Byte} (ha : a.toNat < 8) (x : Byte) :
    RegsAgree [a] (v.set a.toNat x) (w.set a.toNat x) := by
  rintro r ⟨o, hm, hr⟩
  rw [List.mem_singleton.1 hm] at hr
  simp [hr]

/-- The ALU writes the same value from registers that hold the same values. -/
theorem regsAgree_alu (kind : AluKind) {v w : Vector Byte 8} {a b : Byte} (ha : a.toNat < 8)
    (hb : b.toNat < 8) (h : RegsAgree [a, b] v w) :
    RegsAgree [a] (v.set a.toNat (aluResult kind v[a.toNat] v[b.toNat]))
      (w.set a.toNat (aluResult kind w[a.toNat] w[b.toNat])) := by
  rw [h.getElem_eq (by simp) ha, h.getElem_eq (by simp) hb]
  exact regsAgree_set v w ha _

/-- With other register contents an instruction still completes and leaves the same `sp`; if the registers it
reads hold the same values, it leaves the same state but for registers it does not write (R13). -/
theorem State.Completes.withRegs (h : s.Completes i t) (rs : Vector Byte 8) :
    ∃ u, (s.withRegs rs).Completes i u ∧ u.sp = t.sp ∧
      (RegsAgree (regsRead i) rs s.regs →
        u.withRegs t.regs = t ∧ RegsAgree (regsWritten i) u.regs t.regs) := by
  cases h with
  | hlt => exact ⟨_, .hlt, rfl, fun _ => ⟨rfl, regsAgree_nil _ _⟩⟩
  | ldi ha => exact ⟨_, .ldi ha, rfl, fun _ => ⟨rfl, regsAgree_set _ _ ha _⟩⟩
  | prn ha =>
    refine ⟨_, .prn ha, rfl, fun hag => ⟨?_, regsAgree_nil _ _⟩⟩
    simp [State.withRegs, hag.getElem_eq (by simp [regsRead]) ha]
  | mul ha hb => exact ⟨_, .mul ha hb, rfl, fun hag => ⟨rfl, regsAgree_alu .mul ha hb hag⟩⟩
  | add ha hb => exact ⟨_, .add ha hb, rfl, fun hag => ⟨rfl, regsAgree_alu .add ha hb hag⟩⟩
  | push ha hsp =>
    refine ⟨_, .push ha hsp, rfl, fun hag => ⟨?_, regsAgree_nil _ _⟩⟩
    simp [State.withRegs, hag.getElem_eq (by simp [regsRead]) ha]
  | pop ha hsp => exact ⟨_, .pop ha hsp, rfl, fun _ => ⟨rfl, regsAgree_set _ _ ha _⟩⟩
  | call ha hsp hpc =>
    refine ⟨_, .call ha hsp hpc, rfl, fun hag => ⟨?_, regsAgree_nil _ _⟩⟩
    simp [State.withRegs, hag.getElem_eq (by simp [regsRead]) ha]
  | ret hsp => exact ⟨_, .ret hsp, rfl, fun _ => ⟨rfl, regsAgree_nil _ _⟩⟩

/-- No check looks at the contents of a register. -/
theorem State.Raises.withRegs (h : s.Raises i r) (rs : Vector Byte 8) : (s.withRegs rs).Raises i r := by
  cases h with
  | registerA hi ha => exact .registerA (s := s.withRegs rs) hi ha
  | registerB hi ha hb => exact .registerB (s := s.withRegs rs) hi ha hb
  | push hi ha hsp => exact .push (s := s.withRegs rs) hi ha hsp
  | pop ha hsp => exact .pop (s := s.withRegs rs) ha hsp
  | ret hsp => exact .ret (s := s.withRegs rs) hsp

/-! ### What a step can do -/

/-- With `pc` and `sp` in range an instruction that was decoded raises only rows of the error table (R141). -/
theorem State.Raises.reports (h : s.Raises i r) (hd : decode s.irByte s.aByte s.bByte = .ok i)
    (hp : s.pc ≤ 253) (hsp : s.sp ≤ 256) : s.Reports r := by
  have hop := decode_ok_opcode hd
  have hw := decode_ok_withOperands hd
  cases h with
  | registerA hi ha =>
    have hir := opcode_of_regA hi
    rw [decode_ok_regA hd hi] at ha ⊢
    rw [hop] at hir ⊢
    exact .registerA hp hir ha
  | registerB hi ha hb =>
    rw [hop]
    rcases hi with rfl | rfl <;> cases hw <;>
      exact .registerB hp (by rw [← hop]; simp only [Instr.opcode]; decide) ha hb
  | push hi ha hn =>
    have h0 : s.sp = 0 := by omega
    rw [hop, h0]
    rcases hi with rfl | rfl <;> cases hw <;>
      exact .pushAtZero hp (by rw [← hop]; simp only [Instr.opcode]; decide) ha h0
  | pop ha hn =>
    have h0 : s.sp = 256 := by omega
    cases hw
    rw [show (0x46 : Byte) = s.irByte from hop, h0]
    exact .popAtTop hp hop.symm ha h0
  | ret hn =>
    have h0 : s.sp = 256 := by omega
    rw [show (0x11 : Byte) = s.irByte from hop, h0]
    exact .retAtTop hp hop.symm h0

/-- Everything a step can do: a stopped machine stays as it is; a running one raises an error, a row of the
error table where `pc` and `sp` are in range, or completes the instruction at `pc`. -/
theorem step_inv (h : step s = .next t) :
    (s.status ≠ .running ∧ t = s) ∨
    (s.status = .running ∧ ∃ r, (s.pc ≤ 256 → s.sp ≤ 256 → s.Reports r) ∧ t = s.faultedWith r) ∨
    (s.status = .running ∧ s.pc ≤ 253 ∧
      ∃ i, decode s.irByte s.aByte s.bByte = .ok i ∧ s.Completes i t) := by
  by_cases hs : s.status = .running
  · refine .inr ?_
    rcases step_running_cases hs with ⟨hp, g⟩ | ⟨hp, hq, g⟩ | ⟨hp, hn, g⟩ | ⟨hp, i, hd, g⟩ <;> rw [g] at h
    · refine .inl ⟨hs, _, fun hpc _ => ?_, (Host.Outcome.next.inj h).symm⟩
      have e : s.pc = 256 := by omega
      rw [e]
      exact .fetchOpcode e
    · refine .inl ⟨hs, _, fun _ _ => ?_, (Host.Outcome.next.inj h).symm⟩
      rcases (by omega : s.pc = 254 ∨ s.pc = 255) with e | e <;> rw [e]
      · exact .fetchOperandB e
      · exact .fetchOperandA e
    · exact .inl ⟨hs, _, fun _ _ => .illegalOpcode hp hn, (Host.Outcome.next.inj h).symm⟩
    · rcases exec_inv h with hc | ⟨r, hr, rfl⟩
      · exact .inr ⟨hs, hp, i, hd, hc⟩
      · exact .inl ⟨hs, r, fun _ hsp => hr.reports hd hp hsp, rfl⟩
  · rw [step_not_running hs] at h
    exact .inl ⟨hs, (Host.Outcome.next.inj h).symm⟩

/-- An HLT that can be fetched halts. -/
theorem step_of_hlt (hs : s.status = .running) (hp : s.pc ≤ 253) (hir : s.irByte = 0x01) :
    step s = .next s.halt :=
  step_of_fetchInstr_ok (i := .hlt) hs (fetchInstr_ok (by omega) (by rw [hir]; exact decode_hlt _ _))

theorem step_halts_iff (hs : s.status = .running) (h : step s = .next t) :
    t.status = .halted ↔ s.irByte = 0x01 ∧ s.pc ≤ 253 := by
  constructor
  · intro ht
    rcases step_inv h with ⟨hn, -⟩ | ⟨-, r, -, rfl⟩ | ⟨-, hp, i, hd, hc⟩
    · exact absurd hs hn
    · cases ht
    · rcases hc.status_cases hs with ⟨-, e⟩ | ⟨hi, -⟩
      · rw [e] at ht; cases ht
      · exact ⟨by rw [← decode_ok_opcode hd, opcode_eq_hlt_iff, hi], hp⟩
  · rintro ⟨hir, hp⟩
    rw [step_of_hlt hs hp hir] at h
    cases h; rfl

/-! ### The invariant -/

/-- The error table looks at `pc`, `sp` and memory, which an error leaves as they were. -/
theorem State.Reports.faultedWith (h : s.Reports r) (q : ErrorReport) : (s.faultedWith q).Reports r := by
  cases h with
  | fetchOpcode h => exact .fetchOpcode h
  | fetchOperandA h => exact .fetchOperandA (s := s.faultedWith q) h
  | fetchOperandB h => exact .fetchOperandB (s := s.faultedWith q) h
  | illegalOpcode h ir => exact .illegalOpcode (s := s.faultedWith q) h ir
  | registerA h ir a => exact .registerA (s := s.faultedWith q) h ir a
  | registerB h ir a b => exact .registerB (s := s.faultedWith q) h ir a b
  | pushAtZero h ir a sp => exact .pushAtZero (s := s.faultedWith q) h ir a sp
  | popAtTop h ir a sp => exact .popAtTop (s := s.faultedWith q) h ir a sp
  | retAtTop h ir sp => exact .retAtTop (s := s.faultedWith q) h ir sp

theorem State.Inv.faultedWith (h : s.Inv) (hr : s.Reports r) : (s.faultedWith r).Inv where
  memCanonical := h.memCanonical
  memInRange := h.memInRange
  pcBound := h.pcBound
  spBound := h.spBound
  noReport := fun hn => absurd rfl hn
  report := fun _ => ⟨r, rfl, hr.faultedWith r⟩

theorem State.Inv.completes (h : s.Inv) (hs : s.status = .running) (hp : s.pc ≤ 253)
    (hc : s.Completes i t) : t.Inv where
  memCanonical := by
    rcases hc.mem_cases with e | ⟨v, -, e⟩ <;> rw [e]
    · exact h.memCanonical
    · exact Memory.wf_write h.memCanonical _ v
  memInRange := by
    rcases hc.mem_cases with e | ⟨v, ha, e⟩ <;> rw [e]
    · exact h.memInRange
    · exact Memory.inRange_write h.memInRange ha v
  pcBound := hc.pc_le hp
  spBound := by
    have hsp := h.spBound
    rcases hc.sp_cases with ⟨-, e⟩ | ⟨-, e⟩ | ⟨-, hlt, e⟩ <;> omega
  noReport := fun _ => by
    rw [hc.fault_eq]
    exact h.noReport (by rw [hs]; decide)
  report := fun hf => absurd hf (hc.not_faulted hs)

/-! ### Canonical memories -/

/-- The entries of a canonical memory are its reads that differ from an unlisted cell's. -/
theorem Memory.mem_iff_read {m : Memory} (h : m.wf) (c : Host.Cell) :
    c ∈ m ↔ m.read c.1 = c.2 ∧ c.2 ≠ Config.cellReset := by
  refine ⟨fun hc => ⟨Memory.read_of_mem h hc, h.2 c hc⟩, fun ⟨hr, hz⟩ => ?_⟩
  by_cases hl : ∃ d ∈ m, d.1 = c.1
  · obtain ⟨d, hd, e⟩ := hl
    have hv : d.2 = c.2 := by rw [← Memory.read_of_mem h hd, e, hr]
    rwa [← show d = c from Prod.ext e hv]
  · have hu : m.read c.1 = 0 := Memory.read_of_not_listed fun d hd e => hl ⟨d, hd, e⟩
    exact absurd (hr.symm.trans hu) hz

/-- A canonical memory is determined by its reads. -/
theorem Memory.ext_read {m n : Memory} (hm : m.wf) (hn : n.wf) (h : ∀ a, m.read a = n.read a) : m = n := by
  have hmem : ∀ c, c ∈ m ↔ c ∈ n := fun c => by
    rw [Memory.mem_iff_read hm, Memory.mem_iff_read hn, h]
  have hperm : m.Perm n := (List.perm_ext_iff_of_nodup
    (hm.1.imp fun hlt e => by rw [e] at hlt; exact Nat.lt_irrefl _ hlt)
    (hn.1.imp fun hlt e => by rw [e] at hlt; exact Nat.lt_irrefl _ hlt)).2 hmem
  exact hperm.eq_of_pairwise (fun c d _ _ h1 h2 => absurd h1 (Nat.lt_asymm h2)) hm.1 hn.1

end Sys2Proof.Machine

/-! ### The statements on the state -/

namespace Sys2Proof.Machine

/-- Settles O36: an error keeps everything but the report, which is a row of the table; a completed instruction
keeps each range. -/
theorem stepKeepsTheInvariant : Obligations.StepKeepsTheInvariant := by
  intro s t hinv h
  rcases step_inv h with ⟨-, rfl⟩ | ⟨-, r, hr, rfl⟩ | ⟨hs, hp, i, -, hc⟩
  · exact hinv
  · exact hinv.faultedWith (hr hinv.pcBound hinv.spBound)
  · exact hinv.completes hs hp hc

/-- Settles O20, by the cases of a completed instruction, and of a running step for the second clause. -/
theorem eachHandlerSetsTheNextPc : Obligations.EachHandlerSetsTheNextPc := by
  refine ⟨fun i s t hs h => ?_, fun s hs hbad => ?_⟩
  · rcases exec_inv h with hc | ⟨r, -, rfl⟩
    · refine ⟨fun hf => absurd hf (hc.not_faulted hs), fun _ => ?_⟩
      cases hc with
      | call ha => exact ⟨ha, rfl⟩
      | _ => rfl
    · exact ⟨fun _ => rfl, fun hn => absurd rfl hn⟩
  · rcases step_running_cases hs with ⟨-, g⟩ | ⟨-, -, g⟩ | ⟨-, -, g⟩ | ⟨hp, i, hd, -⟩
    · exact ⟨_, g, rfl⟩
    · exact ⟨_, g, rfl⟩
    · exact ⟨_, g, rfl⟩
    · rcases hbad with hp' | hn
      · omega
      · exact nomatch (decode_illegal s.aByte s.bByte hn).symm.trans hd

/-- Settles O22: neither the checks nor the effect look at a register that the row does not name. -/
theorem registersReadAndWrittenByEachInstruction :
    Obligations.RegistersReadAndWrittenByEachInstruction := by
  refine ⟨fun i s t _ h => ⟨exec_regs_frame h, fun rs hag => ?_⟩, fun _ _ => rfl,
    fun s t hs h => ⟨fun i hf => ?_, fun hf => ?_⟩⟩
  · rcases exec_inv h with hc | ⟨r, hr, rfl⟩
    · obtain ⟨u, hu, -, hdep⟩ := hc.withRegs rs
      obtain ⟨hsame, hwritten⟩ := hdep hag
      exact ⟨u, hu.exec_eq, hsame, fun _ => hwritten⟩
    · exact ⟨_, (hr.withRegs rs).exec_eq, rfl, fun hn => absurd rfl hn⟩
  · rw [step_of_fetchInstr_ok hs hf] at h
    exact exec_regs_frame h
  · cases he : s.fetchInstr with
    | ok i => exact absurd he (hf i)
    | error e =>
      rw [step_of_fetchInstr_error hs he] at h
      cases h
      exact ⟨rfl, rfl, rfl⟩

/-- Settles O23: the register frame and dependence of O22 at register 7, and the moves of `sp`. -/
theorem registerSevenIsNotTheStackPointer : Obligations.RegisterSevenIsNotTheStackPointer := by
  refine ⟨rfl, fun r v s => ?_, fun i s t h h7 => ?_, fun b s t h => ?_, fun s hsp => ?_,
    fun i s t v h => ?_, fun i a s t hi _ h ht => ?_⟩
  · have e : (BitVec.ofNat 8 r.val).toNat = r.val := by rw [BitVec.toNat_ofNat]; omega
    refine ⟨_, (State.Completes.ldi (by omega)).exec_eq, ?_, rfl⟩
    simp [e]
  · exact exec_regs_frame h 7 fun w hw e => h7 (BitVec.eq_of_toNat_eq (y := (7 : Byte)) e ▸ hw)
  · rcases h with h | h | h
    · exact exec_sp_of_not_stack h (show opLdi ∉ stackOpcodes by decide)
    · exact exec_sp_of_not_stack h (show opAdd ∉ stackOpcodes by decide)
    · exact exec_sp_of_not_stack h (show opMul ∉ stackOpcodes by decide)
  · exact ⟨_, (State.Completes.pop (by decide) hsp).exec_eq, Vector.getElem_set_self _, rfl⟩
  · rcases exec_inv h with hc | ⟨r, hr, rfl⟩
    · obtain ⟨u, hu, hsp, -⟩ := hc.withRegs (s.regs.set 7 v)
      exact ⟨u, hu.exec_eq, hsp⟩
    · exact ⟨_, (hr.withRegs _).exec_eq, rfl⟩
  · rcases exec_inv h with hc | ⟨r, -, rfl⟩
    · have hop : i.opcode ∈ stackOpcodes := by
        rcases hi with rfl | rfl | rfl | rfl <;> simp only [Instr.opcode] <;> decide
      rcases hc.sp_cases with ⟨hn, -⟩ | ⟨-, e⟩ | ⟨-, -, e⟩
      · exact absurd hop hn
      · omega
      · omega
    · cases ht

/-- Settles O25, by how a completed instruction moves `sp`. -/
theorem stackPointerMovesOnlyByStackInstructions :
    Obligations.StackPointerMovesOnlyByStackInstructions := by
  intro s t h
  rcases step_inv h with ⟨-, rfl⟩ | ⟨-, r, -, rfl⟩ | ⟨hs, -, i, hd, hc⟩
  · exact .inl rfl
  · exact .inl rfl
  · rcases hc.sp_cases with ⟨-, e⟩ | ⟨hop, e⟩ | ⟨hop, -, e⟩
    · exact .inl e
    · rw [decode_ok_opcode hd] at hop; exact .inr (.inl ⟨hs, hop, e⟩)
    · rw [decode_ok_opcode hd] at hop; exact .inr (.inr ⟨hs, hop, e⟩)

/-- Settles O26, by what a completed instruction emits. -/
theorem outputGrowsOnlyByPrn : Obligations.OutputGrowsOnlyByPrn := by
  intro s t h
  rcases step_inv h with ⟨-, rfl⟩ | ⟨-, r, -, rfl⟩ | ⟨hs, -, i, hd, hc⟩
  · exact .inl rfl
  · exact .inl rfl
  · rcases hc.out_cases with e | ⟨a, ha, rfl, e⟩
    · exact .inl e
    · obtain rfl : a = s.aByte := decode_ok_regA hd rfl
      exact .inr ⟨hs, (decode_ok_opcode hd).symm, ha, e⟩

/-- Settles O27: HLT alone completes in Halted, and only an error writes a report. -/
theorem onlyHltHaltsAndOnlyErrorsFault : Obligations.OnlyHltHaltsAndOnlyErrorsFault := by
  intro s t h
  rcases step_inv h with ⟨hn, rfl⟩ | ⟨hs, r, -, rfl⟩ | ⟨hs, -, i, -, hc⟩
  · exact ⟨fun _ => rfl, fun hs => absurd hs hn⟩
  · exact ⟨fun hn => absurd hs hn, fun _ =>
      ⟨.inr (.inr rfl), step_halts_iff hs h, fun _ => nofun, fun hn => absurd rfl hn⟩⟩
  · refine ⟨fun hn => absurd hs hn, fun _ =>
      ⟨?_, step_halts_iff hs h, fun hf => absurd hf (hc.not_faulted hs), fun _ => hc.fault_eq⟩⟩
    rcases hc.status_cases hs with ⟨-, e⟩ | ⟨-, e⟩
    · exact .inl e
    · exact .inr (.inl e)

/-- Settles O50: a canonical memory lists exactly its reads other than 0. -/
theorem canonicalMemoriesThatReadAlikeAreEqual : Obligations.CanonicalMemoriesThatReadAlikeAreEqual :=
  ⟨fun _ _ hm hn h => Memory.ext_read hm hn h, fun _ a v hm => Memory.wf_write hm a v⟩

/-- Settles O37: the memory list is empty and the status Idle. -/
theorem resetMeetsTheInvariant : Obligations.ResetMeetsTheInvariant where
  memCanonical := Memory.wf_nil
  memInRange := fun _ hc => nomatch hc
  pcBound := by decide
  spBound := by decide
  noReport := fun _ => rfl
  report := nofun

/-- Settles O39: an empty memory list reads 0 everywhere, and each other field is the table's. -/
theorem resetStateIsTheTable : Obligations.ResetStateIsTheTable :=
  ⟨fun a _ => Memory.read_nil a, rfl, rfl, rfl, rfl, rfl, rfl⟩

end Sys2Proof.Machine

/-! SUPPORT. Who writes memory (20_memory.md R31), and what the fetch after a store reads (R43). -/

namespace Sys2Proof.Machine

variable {i : Instr} {s t : State} {v : Byte}

/-- A completed instruction leaves memory alone, or is PUSH or CALL and stores one byte below `sp` (R31). -/
theorem State.Completes.store_cases (h : s.Completes i t) :
    t.mem = s.mem ∨
    ((i.opcode = 0x45 ∨ i.opcode = 0x50) ∧ 1 ≤ s.sp ∧ ∃ v, t.mem = s.mem.write (s.sp - 1) v) := by
  cases h with
  | push _ hsp => exact .inr ⟨.inl rfl, hsp.1, _, rfl⟩
  | call _ hsp _ => exact .inr ⟨.inr rfl, hsp.1, _, rfl⟩
  | _ => exact .inl rfl

/-- After a store below `sp` the cell at `sp - 1` reads as the byte, every other cell as before (R33). -/
theorem read_of_store (hm : t.mem = s.mem.write (s.sp - 1) v) (hsp : 1 ≤ s.sp) (k : Nat) :
    t.mem.read k = if k + 1 = s.sp then v else s.mem.read k := by
  rw [hm, Memory.read_write]
  exact if_congr (by omega) rfl rfl

/-- The cycle after a store below `sp` fetches and runs what memory holds since the store (R43, R71). -/
theorem next_cycle_sees_store (hm : t.mem = s.mem.write (s.sp - 1) v) (hsp : 1 ≤ s.sp)
    (ht : t.status = .running) (hp : t.pc ≤ 253) :
    ∃ ir a b,
      t.fetch = .ok (ir, a, b) ∧
      ir = (if t.pc + 1 = s.sp then v else s.mem.read t.pc) ∧
      a = (if t.pc + 2 = s.sp then v else s.mem.read (t.pc + 1)) ∧
      b = (if t.pc + 3 = s.sp then v else s.mem.read (t.pc + 2)) ∧
      ∀ i, decode ir a b = .ok i → step t = exec i t :=
  have hp' : t.pc + 2 < 256 := by omega
  ⟨t.irByte, t.aByte, t.bByte, fetch_ok hp', read_of_store hm hsp _, read_of_store hm hsp _,
    read_of_store hm hsp _, fun _ hd => step_of_fetchInstr_ok ht (fetchInstr_ok hp' hd)⟩

/-! ### The statements on memory -/

/-- Settles O24: a stopped or failing step leaves memory, and PUSH and CALL alone store when they complete. -/
theorem onlyPushAndCallWriteMemory : Obligations.OnlyPushAndCallWriteMemory := by
  intro s t b h hb
  rcases step_inv h with ⟨-, rfl⟩ | ⟨-, r, -, rfl⟩ | ⟨hs, hp, i, hd, hc⟩
  · exact absurd rfl hb
  · exact absurd rfl hb
  · rcases hc.store_cases with hm | ⟨hop, hsp, v, hm⟩
    · exact absurd (congrArg (·.read b) hm) hb
    · rw [decode_ok_opcode hd] at hop
      rw [read_of_store hm hsp] at hb
      have hbsp : b + 1 = s.sp := by by_contra hne; exact hb (if_neg hne)
      exact ⟨hs, hp, hop, by omega⟩

/-- Settles O48: the step completed, so the operand was in range, and the next cycle sees its store. -/
theorem storeIsSeenByTheNextFetch : Obligations.StoreIsSeenByTheNextFetch := by
  intro s t hs hop h ht
  rcases step_inv h with ⟨hn, -⟩ | ⟨-, r, -, rfl⟩ | ⟨-, hp, i, hd, hc⟩
  · exact absurd hs hn
  · cases ht
  · rcases hop with hir | hir <;> rw [show s.irByte = _ from hir] at hd
    · rw [decode_push] at hd
      cases hd
      cases hc with
      | push ha hsp =>
        exact ⟨ha, _, fun _ => ⟨rfl, rfl⟩, fun hir' => absurd (hir.symm.trans hir') (by decide),
          next_cycle_sees_store rfl hsp.1 ht⟩
    · rw [decode_call] at hd
      cases hd
      cases hc with
      | call ha hsp hpc =>
        exact ⟨ha, _, fun hir' => absurd (hir.symm.trans hir') (by decide),
          fun _ => ⟨(BitVec.toNat_ofNat _ 8).trans (Nat.mod_eq_of_lt hpc), rfl⟩,
          next_cycle_sees_store rfl hsp.1 ht⟩

/-- Settles O49: a checked access is one read or write of the memory list, which changes one cell. -/
theorem memoryReadsAndWritesOneBoundedCell : Obligations.MemoryReadsAndWritesOneBoundedCell := by
  intro s addr
  refine ⟨memRead_ok s, fun v h => ⟨_, memWrite_ok s v h, rfl, ?_, fun other hne => ?_⟩,
    fun h => ⟨memRead_error s h, fun v => memWrite_error s v h⟩⟩
  · rw [memRead_ok _ h, Memory.read_write_same]
  · by_cases ho : 0 ≤ other ∧ other < 256
    · rw [memRead_ok _ ho, memRead_ok _ ho, Memory.read_write_other _ _ (by omega)]
    · rw [memRead_error _ ho, memRead_error _ ho]

end Sys2Proof.Machine

/-! SUPPORT. The encoding (30_encoding.md): three bytes decode to an instruction exactly when its encoding
begins them, so the bytes stored at `pc` fix what runs; which errors that instruction raises (R59) and how far
it moves `pc` (R65). -/

namespace Sys2Proof

variable {ir a b : Byte} {i : Instr}

/-! ### Decoding and encoding -/

/-- The facts of Laws/PerInstr.lean for every instruction. -/
theorem encodedBytes : ∀ i : Instr, Laws.EncodedBytes.Statement i
  | .hlt => Laws.EncodedBytes.hlt
  | .ldi a b => Laws.EncodedBytes.ldi a b
  | .prn a => Laws.EncodedBytes.prn a
  | .mul a b => Laws.EncodedBytes.mul a b
  | .add a b => Laws.EncodedBytes.add a b
  | .push a => Laws.EncodedBytes.push a
  | .pop a => Laws.EncodedBytes.pop a
  | .call a => Laws.EncodedBytes.call a
  | .ret => Laws.EncodedBytes.ret

theorem opcode_mem_opcodeBytes (i : Instr) : i.opcode ∈ Machine.opcodeBytes := (encodedBytes i).2.2

/-- No instruction is longer than the three bytes a fetch reads (R50). -/
theorem length_encode_le (i : Instr) : (encode i).length ≤ 3 := by
  rw [(encodedBytes i).1]
  cases i.format <;> decide

/-- An opcode byte decodes to its instruction with the operand bytes that follow it. -/
theorem decode_opcode (i : Instr) (a b : Byte) : decode i.opcode a b = .ok (i.withOperands a b) := by
  cases i with
  | hlt => exact decode_hlt a b
  | ldi => exact decode_ldi a b
  | prn => exact decode_prn a b
  | mul => exact decode_mul a b
  | add => exact decode_add a b
  | push => exact decode_push a b
  | pop => exact decode_pop a b
  | call => exact decode_call a b
  | ret => exact decode_ret a b

theorem decode_ok_iff_opcode : decode ir a b = .ok i ↔ i.opcode = ir ∧ i = i.withOperands a b := by
  constructor
  · exact fun h => ⟨decode_ok_opcode h, decode_ok_withOperands h⟩
  · rintro ⟨rfl, hw⟩
    rw [decode_opcode, ← hw]

/-- An encoding begins three bytes when they are its opcode byte and the operands it has. -/
theorem encode_isPrefix_iff : encode i <+: [ir, a, b] ↔ i.opcode = ir ∧ i = i.withOperands a b := by
  cases i <;> simp [encode, Instr.opcode, Instr.withOperands, List.cons_prefix_cons]

/-- Three bytes decode to an instruction exactly when its encoding begins them. -/
theorem decode_ok_iff_encode : decode ir a b = .ok i ↔ encode i <+: [ir, a, b] :=
  decode_ok_iff_opcode.trans encode_isPrefix_iff.symm

/-- The three bytes a fetch reads are a beginning at least as long as any encoding. -/
theorem encode_isPrefix_of_append {rest tail : List Byte} (h : encode i ++ rest = ir :: a :: b :: tail) :
    encode i <+: [ir, a, b] :=
  List.prefix_of_prefix_length_le ⟨rest, h⟩ ⟨tail, rfl⟩ (length_encode_le i)

theorem decode_accepts_iff : (∃ i, decode ir a b = .ok i) ↔ ir ∈ Machine.opcodeBytes := by
  constructor
  · rintro ⟨i, h⟩
    rw [← decode_ok_opcode h]
    exact opcode_mem_opcodeBytes i
  · intro hm
    cases h : decode ir a b with
    | ok i => exact ⟨i, rfl⟩
    | error e => exact absurd hm (decode_error h).1

theorem decode_rejects_iff :
    decode ir a b = .error (.illegalOpcode ir) ↔ ir ∉ Machine.opcodeBytes :=
  ⟨fun h => (decode_error h).1, decode_illegal a b⟩

/-! ### How many bytes a list leaves out -/

/-- The numbers below 256 that stand for a byte of `l` are the values of those bytes, each once. -/
theorem length_filter_mem_bytes {l : List Byte} (hl : l.Nodup) :
    ((List.range 256).filter fun n => BitVec.ofNat 8 n ∈ l).length = l.length := by
  have hmem : ∀ n, n ∈ ((List.range 256).filter fun n => BitVec.ofNat 8 n ∈ l) ↔ n ∈ l.map BitVec.toNat := by
    intro n
    simp only [List.mem_filter, List.mem_range, decide_eq_true_eq, List.mem_map]
    constructor
    · exact fun ⟨hn, hm⟩ => ⟨_, hm, BitVec.toNat_ofNat n 8 ▸ Nat.mod_eq_of_lt hn⟩
    · rintro ⟨c, hc, rfl⟩
      exact ⟨c.isLt, by rwa [BitVec.ofNat_toNat, BitVec.setWidth_eq]⟩
  have hperm := (List.perm_ext_iff_of_nodup (List.nodup_range.filter _)
    (hl.map fun _ _ => BitVec.eq_of_toNat_eq)).2 hmem
  rw [hperm.length_eq, List.length_map]

theorem length_filter_not_mem_bytes {l : List Byte} (hl : l.Nodup) :
    ((List.range 256).filter fun n => BitVec.ofNat 8 n ∉ l).length = 256 - l.length := by
  have hsplit := List.length_eq_length_filter_add (l := List.range 256) fun n => decide (BitVec.ofNat 8 n ∈ l)
  rw [length_filter_mem_bytes hl, List.length_range] at hsplit
  simp only [decide_not]
  omega
end Sys2Proof

namespace Sys2Proof.Machine

variable {i : Instr} {s t : State} {r : ErrorReport}

/-! ### The instruction stored at `pc` -/

/-- Whatever follows an encoding stored from `pc` on, the three bytes there decode to its instruction. -/
theorem decode_of_stored
    (h : ∀ (k : Nat) (hk : k < (encode i).length), s.mem.read (s.pc + k) = (encode i)[k]) :
    decode s.irByte s.aByte s.bByte = .ok i := by
  have hread : ∀ (k : Nat) (hk : k < 3), [s.irByte, s.aByte, s.bByte][k] = s.mem.read (s.pc + k)
    | 0, _ | 1, _ | 2, _ => rfl
  rw [decode_ok_iff_encode, List.prefix_iff_getElem]
  exact ⟨length_encode_le i, fun k hk =>
    ((hread k (Nat.lt_of_lt_of_le hk (length_encode_le i))).trans (h k hk)).symm⟩

/-- A completed instruction other than CALL and RET halts or leaves `pc` behind its own encoding (R65). -/
theorem State.Completes.pc_eq_add_length (h : s.Completes i t) (hret : i ≠ .ret) (hcall : ∀ a, i ≠ .call a) :
    i = .hlt ∨ t.pc = s.pc + (encode i).length := by
  cases h with
  | hlt => exact .inl rfl
  | call => exact absurd rfl (hcall _)
  | ret => exact absurd rfl hret
  | _ => exact .inr rfl

/-! ### What a report says -/

/-- A handler's report is OutOfRangeAddress and carries the instruction's own opcode (R59, R141). -/
theorem State.Raises.kind_opcode (h : s.Raises i r) :
    r.kind = .outOfRangeAddress ∧ r.opcode = some i.opcode := by
  cases h <;> exact ⟨rfl, rfl⟩

theorem exec_report (hs : s.status = .running) (h : exec i s = .next t) (ht : t.status = .faulted)
    (hr : t.fault = some r) : r.kind = .outOfRangeAddress ∧ r.opcode = some i.opcode := by
  rcases exec_inv h with hc | ⟨q, hq, rfl⟩
  · exact absurd ht (hc.not_faulted hs)
  · cases hr
    exact hq.kind_opcode

/-! ### The statements on the encoding -/

/-- Settles O3: both directions say that the encoding begins the three bytes. -/
theorem decodeAndEncodeAgree : Obligations.DecodeAndEncodeAgree :=
  ⟨fun _ _ _ _ _ _ h => decode_ok_iff_encode.2 (encode_isPrefix_of_append h),
    fun _ _ _ _ h => decode_ok_iff_encode.1 h⟩

/-- Settles O2: every instruction's opcode is one of the nine, the decoder's only error is for a byte that is
none of them, and nine distinct bytes leave 247. -/
theorem decoderRejectsExactlyTheOther247Bytes : Obligations.DecoderRejectsExactlyTheOther247Bytes :=
  have hnodup : opcodeBytes.Nodup := by decide
  ⟨fun _ _ _ => ⟨decode_accepts_iff, decode_rejects_iff⟩, hnodup, length_filter_not_mem_bytes hnodup⟩

/-- Settles O5: the bytes at `pc` decode to the stored instruction, and the step is its handler. -/
theorem instructionStoredAtPcIsTheOneThatRuns : Obligations.InstructionStoredAtPcIsTheOneThatRuns :=
  fun _ _ hs hp h => step_of_fetchInstr_ok hs (fetchInstr_ok hp (decode_of_stored h))

/-- Settles O21: a next state that still runs is that of a completed instruction other than HLT. -/
theorem sequentialInstructionAdvancesByItsLength :
    Obligations.SequentialInstructionAdvancesByItsLength := by
  intro i s t hs h ht hret hcall
  rcases exec_inv h with hc | ⟨r, -, rfl⟩
  · rcases hc.pc_eq_add_length hret hcall with rfl | e
    · cases hc
      cases ht
    · exact e
  · cases ht

/-- Settles O31: a running step reports IllegalInstruction in one of its cases only, the rejected opcode byte. -/
theorem handlersRaiseOnlyOutOfRangeAddress : Obligations.HandlersRaiseOnlyOutOfRangeAddress := by
  refine ⟨fun i s t r => exec_report, fun a b s ha => ⟨_, (State.Completes.ldi ha).exec_eq, rfl⟩,
    fun s t r hs h ht hr hk => ?_⟩
  rcases step_running_cases hs with ⟨-, g⟩ | ⟨-, -, g⟩ | ⟨-, hn, -⟩ | ⟨-, i, -, g⟩
  · rw [g] at h; cases h; cases hr; cases hk
  · rw [g] at h; cases h; cases hr; cases hk
  · exact hn
  · rw [g] at h
    exact nomatch hk.symm.trans (exec_report hs h ht hr).1

/-- Settles O1: each row is the decoder's answer for its opcode byte. -/
theorem opcodeMapDecodesItsNineRows : Obligations.OpcodeMapDecodesItsNineRows := fun a b =>
  ⟨decode_hlt a b, decode_ldi a b, decode_prn a b, decode_mul a b, decode_add a b, decode_push a b,
    decode_pop a b, decode_call a b, decode_ret a b⟩

end Sys2Proof.Machine

/-! SUPPORT. The cycle (40_cycle.md): an instruction that can be fetched completes or raises, so that every step
answers a next state (R74); the fetch decides the error of a cycle and its opcode field (R71); and how a run
ends (R75). -/

namespace Sys2Proof.Machine

variable {i : Instr} {s t u : State} {r : ErrorReport}

/-! ### Every step answers a next state -/

/-- Where the return address is a byte the checks of every instruction pass or one of them raises; only CALL
looks at the return address (R125). -/
theorem completes_or_raises (i : Instr) (hp : s.pc + 2 < 256) :
    (∃ t, s.Completes i t) ∨ ∃ r, s.Raises i r := by
  by_cases hA : ∃ a, i.regA = some a ∧ 8 ≤ a.toNat
  · obtain ⟨a, hi, ha⟩ := hA
    exact .inr ⟨_, .registerA hi ha⟩
  · have hlt : ∀ a, i.regA = some a → a.toNat < 8 := fun a hi => Nat.lt_of_not_le fun ha => hA ⟨a, hi, ha⟩
    cases i with
    | hlt => exact .inl ⟨_, .hlt⟩
    | ldi a b => exact .inl ⟨_, .ldi (hlt a rfl)⟩
    | prn a => exact .inl ⟨_, .prn (hlt a rfl)⟩
    | mul a b =>
      rcases Nat.lt_or_ge b.toNat 8 with hb | hb
      · exact .inl ⟨_, .mul (hlt a rfl) hb⟩
      · exact .inr ⟨_, .registerB (.inl rfl) (hlt a rfl) hb⟩
    | add a b =>
      rcases Nat.lt_or_ge b.toNat 8 with hb | hb
      · exact .inl ⟨_, .add (hlt a rfl) hb⟩
      · exact .inr ⟨_, .registerB (.inr rfl) (hlt a rfl) hb⟩
    | push a =>
      by_cases hsp : 1 ≤ s.sp ∧ s.sp ≤ 256
      · exact .inl ⟨_, .push (hlt a rfl) hsp⟩
      · exact .inr ⟨_, .push (.inl rfl) (hlt a rfl) hsp⟩
    | pop a =>
      rcases Nat.lt_or_ge s.sp 256 with hsp | hsp
      · exact .inl ⟨_, .pop (hlt a rfl) hsp⟩
      · exact .inr ⟨_, .pop (hlt a rfl) hsp⟩
    | call a =>
      by_cases hsp : 1 ≤ s.sp ∧ s.sp ≤ 256
      · exact .inl ⟨_, .call (hlt a rfl) hsp hp⟩
      · exact .inr ⟨_, .push (.inr rfl) (hlt a rfl) hsp⟩
    | ret =>
      rcases Nat.lt_or_ge s.sp 256 with hsp | hsp
      · exact .inl ⟨_, .ret hsp⟩
      · exact .inr ⟨_, .ret hsp⟩

theorem exec_total (i : Instr) (hp : s.pc + 2 < 256) : ∃ t, exec i s = .next t := by
  rcases completes_or_raises i hp with ⟨t, hc⟩ | ⟨r, hr⟩
  · exact ⟨t, hc.exec_eq⟩
  · exact ⟨_, hr.exec_eq⟩

/-- Settles O33: a handler runs only after the fetch read `pc + 2`, so CALL's return address is a byte. -/
theorem everyStepAnswersANextState : Obligations.EveryStepAnswersANextState := by
  intro s
  by_cases hs : s.status = .running
  · rcases step_running_cases hs with ⟨-, g⟩ | ⟨-, -, g⟩ | ⟨-, -, g⟩ | ⟨hp, i, -, g⟩
    · exact ⟨_, g⟩
    · exact ⟨_, g⟩
    · exact ⟨_, g⟩
    · rw [g]
      exact exec_total i (by omega)
  · exact ⟨s, step_not_running hs⟩

/-! ### What the fetch decides -/

/-- Settles O4: three reads in range and a decoded instruction leave the step its handler. -/
theorem stepRunsTheDecodedInstruction : Obligations.StepRunsTheDecodedInstruction :=
  fun _ _ hs hp hd => step_of_fetchInstr_ok hs (fetchInstr_ok hp hd)

theorem step_of_fetch_error {e : FetchError} (hs : s.status = .running) (hf : s.fetch = .error e) :
    step s = .next (s.raise e.1 e.2) :=
  step_of_fetchInstr_error hs (fetchInstr_error hf)

/-- At 254 and 255 an operand read fails at address 256, whatever the opcode byte (R71). -/
theorem fetch_operand (hp : s.pc = 254 ∨ s.pc = 255) :
    s.fetch = .error (some s.irByte, .outOfRange .mem 256) :=
  hp.elim fetch_operandB fetch_operandA

/-- An error of a cycle whose fetch succeeded reports the byte at `pc` (R18, R146). -/
theorem step_report_opcode (hs : s.status = .running) (hp : s.pc ≤ 253) (h : step s = .next t)
    (ht : t.status = .faulted) (hr : t.fault = some r) : r.opcode = some s.irByte := by
  rcases step_running_cases hs with ⟨hq, -⟩ | ⟨hq, -, -⟩ | ⟨-, -, g⟩ | ⟨-, i, hd, g⟩
  · omega
  · omega
  · rw [g] at h
    cases h
    cases hr
    rfl
  · rw [g] at h
    rw [(exec_report hs h ht hr).2, decode_ok_opcode hd]

/-- Settles O29, by the first read that fails in each range of `pc`. -/
theorem fetchReadsThreeBytesWhateverTheOpcode : Obligations.FetchReadsThreeBytesWhateverTheOpcode :=
  fun _ hs =>
    ⟨fun hp => ⟨_, _, step_of_fetch_error hs (fetch_opcode hp), rfl, rfl, rfl, rfl, rfl, rfl⟩,
      fun hp => ⟨_, _, step_of_fetch_error hs (fetch_operand hp), rfl, rfl, rfl, rfl, rfl, rfl⟩,
      fun hp => ⟨fetch_ok (by omega), fun _ _ => step_report_opcode hs hp⟩⟩

/-! ### How a run ends -/

/-- While the status is not Running no number of cycles changes the state (R86). -/
theorem run_not_running (hs : s.status ≠ .running) (n : Nat) : Sys2Proof.core.run n s = .next s := by
  induction n with
  | zero => exact run_zero s
  | succ n ih => rw [run_succ_of_next (step_not_running hs), ih]

/-- A run of `k + m` cycles is a run of `m` cycles from the state that `k` cycles left. -/
theorem run_add_of_next {k : Nat} (h : Sys2Proof.core.run k s = .next u) (m : Nat) :
    Sys2Proof.core.run (k + m) s = Sys2Proof.core.run m u := by
  induction k generalizing s with
  | zero =>
    cases h
    rw [Nat.zero_add]
  | succ k ih =>
    obtain ⟨v, hv⟩ := everyStepAnswersANextState s
    rw [run_succ_of_next hv] at h
    rw [Nat.succ_add, run_succ_of_next hv, ih h]

/-- A run from Running that is no longer Running left Running in one of its cycles. -/
theorem run_exists_last_cycle {n : Nat} (hs : s.status = .running) (h : Sys2Proof.core.run n s = .next t)
    (ht : t.status ≠ .running) :
    ∃ (k : Nat) (u : State), k < n ∧ Sys2Proof.core.run k s = .next u ∧ u.status = .running ∧
      step u = .next t := by
  induction n generalizing s with
  | zero =>
    cases h
    exact absurd hs ht
  | succ n ih =>
    obtain ⟨v, hv⟩ := everyStepAnswersANextState s
    rw [run_succ_of_next hv] at h
    by_cases hvs : v.status = .running
    · obtain ⟨k, u, hk, hrun, hu, hstep⟩ := ih hvs h
      exact ⟨k + 1, u, Nat.succ_lt_succ hk, by rw [run_succ_of_next hv, hrun], hu, hstep⟩
    · rw [run_not_running hvs] at h
      cases h
      exact ⟨0, s, Nat.succ_pos n, run_zero s, hs, hv⟩

/-- A cycle that leaves Running is an HLT, or an error with its report (R75, R86, R150). -/
theorem step_leaves_running (hs : s.status = .running) (h : step s = .next t) (ht : t.status ≠ .running) :
    (t.status = .halted ∧ s.irByte = 0x01) ∨ (t.status = .faulted ∧ t.fault ≠ none) := by
  obtain ⟨hstatus, hhalt, hfault, -⟩ := (onlyHltHaltsAndOnlyErrorsFault s t h).2 hs
  rcases hstatus with e | e | e
  · exact absurd e ht
  · exact .inl ⟨e, (hhalt.1 e).1⟩
  · exact .inr ⟨e, hfault e⟩

/-- Settles O35: the cycle that left Running ended the run, and no cycle after it changes the state. -/
theorem runEndsOnlyByHltOrByAnError : Obligations.RunEndsOnlyByHltOrByAnError := by
  intro n s t hs h ht
  obtain ⟨k, u, hk, hrun, hu, hstep⟩ := run_exists_last_cycle hs h ht
  refine ⟨k, u, hk, hrun, hu, hstep, step_leaves_running hu hstep ht, fun m hm => ?_⟩
  obtain ⟨j, rfl⟩ : ∃ j, m = k + (j + 1) := ⟨m - k - 1, by omega⟩
  rw [run_add_of_next hrun, run_succ_of_next hstep, run_not_running ht]

end Sys2Proof.Machine

/-! SUPPORT. Halting (41_halt.md): HLT is the only way to end a run without an error (R85), and no cycle is
executed after the end (R86). -/

namespace Sys2Proof.Machine

variable {i : Instr} {s t : State}

theorem exec_hlt (s : State) : exec .hlt s = .next s.halt := State.Completes.hlt.exec_eq

/-- From Running an instruction other than HLT leaves the machine Running, or Faulted by its own error. -/
theorem exec_status_of_ne_hlt (hs : s.status = .running) (h : exec i s = .next t) (hi : i ≠ .hlt) :
    t.status = .running ∨ t.status = .faulted := by
  rcases exec_inv h with hc | ⟨r, -, rfl⟩
  · rcases hc.status_cases hs with ⟨-, e⟩ | ⟨e, -⟩
    · exact .inl e
    · exact absurd e hi
  · exact .inr rfl

/-- A cycle that halts is an HLT's, and it leaves `pc` on the HLT byte (R85). -/
theorem eq_halt_of_step_halted (hs : s.status = .running) (h : step s = .next t)
    (ht : t.status = .halted) : s.pc ≤ 253 ∧ s.irByte = 0x01 ∧ t = s.halt := by
  obtain ⟨hir, hp⟩ := (step_halts_iff hs h).1 ht
  rw [step_of_hlt hs hp hir] at h
  exact ⟨hp, hir, (Host.Outcome.next.inj h).symm⟩

/-- A cycle that leaves Running, and not by an error, halts (R75). -/
theorem step_halted_of_not_faulted (hs : s.status = .running) (h : step s = .next t)
    (hr : t.status ≠ .running) (hf : t.status ≠ .faulted) : t.status = .halted := by
  rcases step_leaves_running hs h hr with ⟨e, -⟩ | ⟨e, -⟩
  · exact e
  · exact absurd e hf

/-! ### The statements on halting -/

/-- Settles O7: HLT is fetched up to 253, the operand reads fail at 254 and 255, and nothing else halts. -/
theorem hltHaltsWithPcOnItsOwnByte : Obligations.HltHaltsWithPcOnItsOwnByte := by
  refine ⟨rfl, exec_hlt, fun s hs hir => ⟨fun hp => step_of_hlt hs hp hir, fun hp => ?_⟩,
    fun i s t => exec_status_of_ne_hlt, fun s t hs h hr hf => ?_⟩
  · exact ⟨_, _, step_of_fetch_error hs (fetch_operand hp), rfl, rfl, rfl, rfl, rfl⟩
  · exact eq_halt_of_step_halted hs h (step_halted_of_not_faulted hs h hr hf)

/-- Settles O19: HLT writes the status alone; PRN writes `out` and `pc`, or the error's status and report. -/
theorem hltPrnFrame : Obligations.HltPrnFrame := by
  refine ⟨fun s t h => ?_, fun a s t h => ?_⟩
  · obtain rfl := exec_hlt_inv h
    exact ⟨fun _ => rfl, rfl, rfl, rfl, rfl, rfl⟩
  · rcases exec_prn_inv h with ⟨ha, rfl⟩ | ⟨ha, rfl⟩
    · exact ⟨fun _ => rfl, rfl, rfl, fun _ => ⟨rfl, rfl⟩, fun hn => absurd ha (Nat.not_lt.2 hn)⟩
    · exact ⟨fun _ => rfl, rfl, rfl, fun hn => absurd hn (Nat.not_lt.2 ha), fun _ => ⟨rfl, rfl⟩⟩

/-- Settles O34: a stopped machine's cycle answers the same state, and so does any number of them. -/
theorem noCycleRunsUnlessRunning : Obligations.NoCycleRunsUnlessRunning :=
  fun _ hs n => run_not_running hs n

end Sys2Proof.Machine

/-! SUPPORT. Loading and printing (42_load_print.md): LDI and PRN (R90, R91), the frame LDI shares with MUL and
ADD, and the output as text (R92). -/

namespace Sys2Proof.Machine

variable {i : Instr} {a b : Byte} {s t : State} {r : ErrorReport}

theorem exec_ldi (s : State) (b : Byte) (ha : a.toNat < 8) :
    exec (.ldi a b) s = .next { s with regs := s.regs.set a.toNat b, pc := s.pc + 3 } :=
  (State.Completes.ldi ha).exec_eq

theorem exec_prn (s : State) (ha : a.toNat < 8) :
    exec (.prn a) s = .next { s with out := s.out ++ [s.regs[a.toNat]], pc := s.pc + 2 } :=
  (State.Completes.prn ha).exec_eq

/-! ### The register-writing forms LDI, MUL and ADD -/

/-- An instruction completes only with its register operands in range (R12). -/
theorem State.Completes.wellFormed (h : s.Completes i t) : i.wellFormed = true := by
  cases h with
  | hlt | ret => rfl
  | mul ha hb | add ha hb => simp [Instr.wellFormed, Instr.regOk, ha, hb]
  | ldi ha | prn ha | push ha | pop ha | call ha => simp [Instr.wellFormed, Instr.regOk, ha]

/-- LDI, MUL and ADD complete with a byte in the destination register and `pc` advanced (R90, R103, R104). -/
theorem State.Completes.eq_set_reg (h : s.Completes i t) (hi : i = .ldi a b ∨ i = .mul a b ∨ i = .add a b) :
    ∃ (_ : a.toNat < 8) (v : Byte), t = { s with regs := s.regs.set a.toNat v, pc := s.pc + 3 } := by
  rcases hi with rfl | rfl | rfl
  · cases h with | ldi ha => exact ⟨ha, _, rfl⟩
  · cases h with | mul ha _ => exact ⟨ha, _, rfl⟩
  · cases h with | add ha _ => exact ⟨ha, _, rfl⟩

/-- LDI, MUL and ADD raise only for a register operand out of range (R141). -/
theorem State.Raises.wellFormed_eq_false (h : s.Raises i r) (hi : i = .ldi a b ∨ i = .mul a b ∨ i = .add a b) :
    i.wellFormed = false := by
  cases h with
  | registerA hA ha =>
    rcases hi with rfl | rfl | rfl <;> cases hA <;> simp [Instr.wellFormed, Instr.regOk, ha]
  | registerB hB _ hb => rcases hB with rfl | rfl <;> simp [Instr.wellFormed, Instr.regOk, hb]
  | push hP => rcases hP with rfl | rfl <;> simp at hi
  | pop | ret => simp at hi

/-! ### The output as text -/

/-- Emitting one more value appends its line to the text (R92). -/
theorem renderLines_concat (vs : List Byte) (v : Byte) :
    renderLines (vs ++ [v]) = renderLines vs ++ renderLine v := by
  induction vs with
  | nil => simp [renderLines]
  | cons w vs ih => rw [List.cons_append, renderLines, ih, renderLines, String.append_assoc]

/-! ### The statements on loading and printing -/

/-- Settles O8: LDI checks its register alone and completes. -/
theorem ldiLoadsTheImmediateByte : Obligations.LdiLoadsTheImmediateByte :=
  fun _ b s => ⟨rfl, exec_ldi s b, exec_of_regA_error rfl⟩

/-- Settles O9: PRN checks its register alone and completes. -/
theorem prnEmitsTheRegister : Obligations.PrnEmitsTheRegister :=
  fun _ s => ⟨rfl, exec_prn s, exec_of_regA_error rfl⟩

/-- Settles O16: a completed form writes one register and `pc`, and only an ill-formed one raises. -/
theorem ldiMulAddFrame : Obligations.LdiMulAddFrame := by
  intro i a b s t hi h
  rcases exec_inv h with hc | ⟨r, hr, rfl⟩
  · have hwf := hc.wellFormed
    obtain ⟨ha, v, rfl⟩ := hc.eq_set_reg hi
    exact ⟨fun _ => rfl, rfl, rfl, fun r hne => Vector.getElem_set_ne ha r.isLt (Ne.symm hne),
      fun _ => ⟨rfl, rfl⟩, fun hn => nomatch hwf.symm.trans hn⟩
  · exact ⟨fun _ => rfl, rfl, rfl, fun _ _ => rfl,
      fun hwf => (nomatch hwf.symm.trans (hr.wellFormed_eq_false hi)), fun _ => ⟨rfl, rfl⟩⟩

/-- Settles O46: PRN reads the register that LDI has just written. -/
theorem ldiThenPrnEmitsTheValue : Obligations.LdiThenPrnEmitsTheValue := by
  intro a v s ha
  refine ⟨_, _, exec_ldi s v ha, exec_prn _ ha, ?_, rfl, rfl⟩
  rw [Vector.getElem_set_self]

/-- Settles O47: PRN emits one value, and one more value is one more line. -/
theorem eachPrnAddsOneDecimalLine : Obligations.EachPrnAddsOneDecimalLine := by
  intro a s ha
  refine ⟨_, exec_prn s ha, ?_⟩
  calc renderLines (s.out ++ [s.regs[a.toNat]])
    _ = s.outText ++ (Nat.repr s.regs[a.toNat].toNat ++ "\n") := renderLines_concat _ _
    _ = s.outText ++ Nat.repr s.regs[a.toNat].toNat ++ "\n" := (String.append_assoc ..).symm

end Sys2Proof.Machine

/-! SUPPORT. The ALU (43_alu.md): what MUL and ADD complete with (R103, R104), and the laws of the ring of bytes
that the values they write obey (R102). -/

namespace Sys2Proof.Machine

variable {a b c : Byte} {s : State}

/-! ### The ALU's results as the ring of bytes -/

theorem aluResult_add_eq (x y : Byte) : aluResult .add x y = x + y :=
  BitVec.eq_of_toNat_eq (aluResult_add_toNat x y)

theorem aluResult_mul_eq (x y : Byte) : aluResult .mul x y = x * y :=
  BitVec.eq_of_toNat_eq (aluResult_mul_toNat x y)

/-- Both operations are commutative on their source values (R102). -/
theorem aluResult_comm (kind : AluKind) (x y : Byte) : aluResult kind x y = aluResult kind y x := by
  cases kind with
  | add => rw [aluResult_add_eq, aluResult_add_eq, BitVec.add_comm]
  | mul => rw [aluResult_mul_eq, aluResult_mul_eq, BitVec.mul_comm]

/-- Both operations are associative modulo 256 (R102). -/
theorem aluResult_assoc (kind : AluKind) (x y z : Byte) :
    aluResult kind (aluResult kind x y) z = aluResult kind x (aluResult kind y z) := by
  cases kind with
  | add => simp only [aluResult_add_eq, BitVec.add_assoc]
  | mul => simp only [aluResult_mul_eq, BitVec.mul_assoc]

/-- Multiplication distributes over addition modulo 256 (R102). -/
theorem aluResult_distrib (x y z : Byte) :
    aluResult .mul (aluResult .add x y) z = aluResult .add (aluResult .mul x z) (aluResult .mul y z) := by
  simp only [aluResult_add_eq, aluResult_mul_eq, BitVec.add_mul]

/-! ### The instruction of each kind -/

/-- The instruction whose handler asks the ALU for an operation of this kind (R105). -/
def AluKind.instr : AluKind → Byte → Byte → Instr
  | .add => .add
  | .mul => .mul

/-- The state after an ALU instruction with its registers in range; `exec_aluInstr` ties it to `exec`. -/
def State.afterAlu (s : State) (kind : AluKind) (ha : a.toNat < 8) (hb : b.toNat < 8) : State :=
  { s with regs := s.regs.set a.toNat (aluResult kind s.regs[a.toNat] s.regs[b.toNat]), pc := s.pc + 3 }

theorem exec_aluInstr (s : State) (kind : AluKind) (ha : a.toNat < 8) (hb : b.toNat < 8) :
    exec (kind.instr a b) s = .next (s.afterAlu kind ha hb) := by
  cases kind with
  | add => exact (State.Completes.add ha hb).exec_eq
  | mul => exact (State.Completes.mul ha hb).exec_eq

theorem exec_add (s : State) (ha : a.toNat < 8) (hb : b.toNat < 8) :
    exec (.add a b) s = .next (s.afterAlu .add ha hb) := exec_aluInstr s .add ha hb

theorem exec_mul (s : State) (ha : a.toNat < 8) (hb : b.toNat < 8) :
    exec (.mul a b) s = .next (s.afterAlu .mul ha hb) := exec_aluInstr s .mul ha hb

theorem State.afterAlu_regs_dest (s : State) (kind : AluKind) (ha : a.toNat < 8) (hb : b.toNat < 8) :
    (s.afterAlu kind ha hb).regs[a.toNat] = aluResult kind s.regs[a.toNat] s.regs[b.toNat] :=
  Vector.getElem_set_self ha

theorem State.afterAlu_regs_of_ne (s : State) (kind : AluKind) (ha : a.toNat < 8) (hb : b.toNat < 8)
    (hc : c.toNat < 8) (hne : a ≠ c) : (s.afterAlu kind ha hb).regs[c.toNat] = s.regs[c.toNat] :=
  Vector.getElem_set_ne ha hc fun e => hne (BitVec.eq_of_toNat_eq e)

/-! ### The laws on registers -/

/-- The value written depends on the two source values, not on which register holds which (R102). -/
theorem afterAlu_dest_of_swapped (kind : AluKind) {s u : State} (ha : a.toNat < 8) (hb : b.toNat < 8)
    (h1 : u.regs[a.toNat] = s.regs[b.toNat]) (h2 : u.regs[b.toNat] = s.regs[a.toNat]) :
    (s.afterAlu kind ha hb).regs[a.toNat] = (u.afterAlu kind ha hb).regs[a.toNat] := by
  rw [State.afterAlu_regs_dest, State.afterAlu_regs_dest, h1, h2, aluResult_comm]

/-- With the operands exchanged the other register gets the same value (R102). -/
theorem afterAlu_dest_comm (s : State) (kind : AluKind) (ha : a.toNat < 8) (hb : b.toNat < 8) :
    (s.afterAlu kind ha hb).regs[a.toNat] = (s.afterAlu kind hb ha).regs[b.toNat] := by
  rw [State.afterAlu_regs_dest, State.afterAlu_regs_dest, aluResult_comm]

/-- The two groupings of a double sum or product leave the same value (R102). -/
theorem afterAlu_dest_assoc (s : State) (kind : AluKind) (ha : a.toNat < 8) (hb : b.toNat < 8)
    (hc : c.toNat < 8) (hab : a ≠ b) (hac : a ≠ c) :
    ((s.afterAlu kind ha hb).afterAlu kind ha hc).regs[a.toNat] =
      ((s.afterAlu kind hb hc).afterAlu kind ha hb).regs[a.toNat] :=
  calc ((s.afterAlu kind ha hb).afterAlu kind ha hc).regs[a.toNat]
    _ = aluResult kind (aluResult kind s.regs[a.toNat] s.regs[b.toNat]) s.regs[c.toNat] := by
        rw [State.afterAlu_regs_dest, State.afterAlu_regs_dest, s.afterAlu_regs_of_ne kind ha hb hc hac]
    _ = aluResult kind s.regs[a.toNat] (aluResult kind s.regs[b.toNat] s.regs[c.toNat]) :=
        aluResult_assoc ..
    _ = ((s.afterAlu kind hb hc).afterAlu kind ha hb).regs[a.toNat] := by
        rw [State.afterAlu_regs_dest, State.afterAlu_regs_dest,
          s.afterAlu_regs_of_ne kind hb hc ha hab.symm]

/-- Adding B to A and multiplying by C leaves in A what multiplying both by C and adding leaves (R102). -/
theorem afterAlu_dest_distrib (s : State) (ha : a.toNat < 8) (hb : b.toNat < 8) (hc : c.toNat < 8)
    (hab : a ≠ b) (hac : a ≠ c) :
    ((s.afterAlu .add ha hb).afterAlu .mul ha hc).regs[a.toNat] =
      (((s.afterAlu .mul ha hc).afterAlu .mul hb hc).afterAlu .add ha hb).regs[a.toNat] :=
  calc ((s.afterAlu .add ha hb).afterAlu .mul ha hc).regs[a.toNat]
    _ = aluResult .mul (aluResult .add s.regs[a.toNat] s.regs[b.toNat]) s.regs[c.toNat] := by
        rw [State.afterAlu_regs_dest, State.afterAlu_regs_dest, s.afterAlu_regs_of_ne .add ha hb hc hac]
    _ = aluResult .add (aluResult .mul s.regs[a.toNat] s.regs[c.toNat])
          (aluResult .mul s.regs[b.toNat] s.regs[c.toNat]) := aluResult_distrib ..
    _ = (((s.afterAlu .mul ha hc).afterAlu .mul hb hc).afterAlu .add ha hb).regs[a.toNat] := by
        rw [State.afterAlu_regs_dest, State.afterAlu_regs_of_ne _ .mul hb hc ha hab.symm,
          State.afterAlu_regs_dest, State.afterAlu_regs_dest, s.afterAlu_regs_of_ne .mul ha hc hb hab,
          s.afterAlu_regs_of_ne .mul ha hc hc hac]

/-! ### The statements on the ALU -/

/-- Settles O10: MUL checks A, then B, and completes with the ALU's product. -/
theorem mulWritesTheProductModulo256 : Obligations.MulWritesTheProductModulo256 := fun _ _ s =>
  ⟨rfl, fun ha hb => ⟨_, aluResult_mul_toNat _ _, exec_mul s ha hb⟩, exec_of_regA_error rfl,
    fun ha hb => (State.Raises.registerB (.inl rfl) ha hb).exec_eq⟩

/-- Settles O11: ADD checks A, then B, and completes with the ALU's sum. -/
theorem addWritesTheSumModulo256 : Obligations.AddWritesTheSumModulo256 := fun _ _ s =>
  ⟨rfl, fun ha hb => ⟨_, aluResult_add_toNat _ _, exec_add s ha hb⟩, exec_of_regA_error rfl,
    fun ha hb => (State.Raises.registerB (.inr rfl) ha hb).exec_eq⟩

/-- Settles O43: the states after the instructions are `State.afterAlu`, whose destination obeys the laws. -/
theorem addAndMulObeyRingLaws : Obligations.AddAndMulObeyRingLaws := by
  refine ⟨fun op hop => ?_, fun d e f s hd he hf hde hef _ => ?distributive⟩
  · obtain ⟨kind, rfl⟩ : ∃ kind : AluKind, op = kind.instr := hop.elim (⟨.add, ·⟩) (⟨.mul, ·⟩)
    refine ⟨fun d r s u hd hr h1 h2 => ?sources, fun d r s hd hr hne => ?operands,
      fun d e f s hd he hf hde _ hdf => ?associative⟩
    case sources =>
      exact ⟨_, _, exec_aluInstr s kind hd hr, exec_aluInstr u kind hd hr,
        afterAlu_dest_of_swapped kind hd hr h1 h2⟩
    case operands =>
      exact ⟨_, _, exec_aluInstr s kind hd hr, exec_aluInstr s kind hr hd, afterAlu_dest_comm s kind hd hr,
        s.afterAlu_regs_of_ne kind hd hr hr hne, s.afterAlu_regs_of_ne kind hr hd hd hne.symm⟩
    case associative =>
      exact ⟨_, _, _, _, exec_aluInstr s kind hd he, exec_aluInstr _ kind hd hf, exec_aluInstr s kind he hf,
        exec_aluInstr _ kind hd he, afterAlu_dest_assoc s kind hd he hf hde hdf⟩
  case distributive =>
    exact ⟨_, _, _, _, _, exec_add s he hf, exec_mul _ he hd, exec_mul s he hd, exec_mul _ hf hd,
      exec_add _ he hf, afterAlu_dest_distrib s he hf hd hef hde.symm⟩

end Sys2Proof.Machine

/-! SUPPORT. The stack (44_stack.md): what PUSH and POP complete with (R116, R117), the frames they share with
CALL and RET (R125, R126), and that a POP brings back the value of its PUSH (R118). -/

namespace Sys2Proof.Machine

variable {i : Instr} {a b : Byte} {s t u : State} {r : ErrorReport}

/-! ### PUSH and POP with register and address in range -/

/-- The state after a PUSH whose checks pass; `exec_push` ties it to `exec`. -/
def State.afterPush (s : State) (ha : a.toNat < 8) : State :=
  { s with mem := s.mem.write (s.sp - 1) s.regs[a.toNat], sp := s.sp - 1, pc := s.pc + 2 }

theorem State.afterPush_sp (s : State) (ha : a.toNat < 8) : (s.afterPush ha).sp = s.sp - 1 := rfl

theorem State.afterPush_read (s : State) (ha : a.toNat < 8) (hsp : 1 ≤ s.sp) (k : Nat) :
    (s.afterPush ha).mem.read k = if k + 1 = s.sp then s.regs[a.toNat] else s.mem.read k :=
  read_of_store rfl hsp k

theorem exec_push (s : State) (ha : a.toNat < 8) (hsp : 1 ≤ s.sp ∧ s.sp ≤ 256) :
    exec (.push a) s = .next (s.afterPush ha) :=
  (State.Completes.push ha hsp).exec_eq

theorem exec_pop (s : State) (ha : a.toNat < 8) (hsp : s.sp < 256) :
    exec (.pop a) s =
      .next { s with regs := s.regs.set a.toNat (s.mem.read s.sp), sp := s.sp + 1, pc := s.pc + 2 } :=
  (State.Completes.pop ha hsp).exec_eq

/-- A POP with `sp` and the pushed cell as the PUSH left them takes the pushed value and restores `sp` (R118). -/
theorem exec_pop_of_pushed (ha : a.toNat < 8) (hb : b.toNat < 8) (hsp : 1 ≤ s.sp ∧ s.sp ≤ 256)
    (hu : u.sp = (s.afterPush ha).sp)
    (hcell : u.mem.read (s.sp - 1) = (s.afterPush ha).mem.read (s.sp - 1)) :
    exec (.pop b) u =
      .next { u with regs := u.regs.set b.toNat s.regs[a.toNat], sp := s.sp, pc := u.pc + 2 } := by
  rw [State.afterPush_sp] at hu
  rw [s.afterPush_read ha hsp.1, if_pos (by omega), ← hu] at hcell
  rw [exec_pop u hb (by omega), hcell, show u.sp + 1 = s.sp by omega]

/-! ### The storing forms PUSH and CALL, the popping forms POP and RET -/

/-- PUSH and CALL complete with one byte stored below `sp`, `sp` lowered and `pc` written (R116, R125). -/
theorem State.Completes.eq_store (h : s.Completes i t) (hi : i = .push a ∨ i = .call a) :
    (a.toNat < 8 ∧ 1 ≤ s.sp ∧ s.sp ≤ 256) ∧
    ∃ v pc, t = { s with mem := s.mem.write (s.sp - 1) v, sp := s.sp - 1, pc := pc } := by
  rcases hi with rfl | rfl
  · cases h with | push ha hsp => exact ⟨⟨ha, hsp⟩, _, _, rfl⟩
  · cases h with | call ha hsp _ => exact ⟨⟨ha, hsp⟩, _, _, rfl⟩

/-- PUSH and CALL raise only for the register operand or the address they push to (R141). -/
theorem State.Raises.store_out_of_range (h : s.Raises i r) (hi : i = .push a ∨ i = .call a) :
    ¬(a.toNat < 8 ∧ 1 ≤ s.sp ∧ s.sp ≤ 256) := by
  rintro ⟨ha, hsp⟩
  cases h with
  | registerA hA hge => rcases hi with rfl | rfl <;> cases hA <;> omega
  | registerB hB => rcases hB with rfl | rfl <;> simp at hi
  | push _ _ hn => exact hn hsp
  | pop | ret => simp at hi

/-- POP and RET complete with registers and `pc` written and `sp` raised (R117, R126). -/
theorem State.Completes.eq_pop (h : s.Completes i t) (hi : (∃ a, i = .pop a) ∨ i = .ret) :
    s.sp < 256 ∧ ∃ regs pc, t = { s with regs := regs, sp := s.sp + 1, pc := pc } := by
  rcases hi with ⟨a, rfl⟩ | rfl
  · cases h with | pop _ hsp => exact ⟨hsp, _, _, rfl⟩
  · cases h with | ret hsp => exact ⟨hsp, _, _, rfl⟩

/-- POP and RET raise only for the register operand or the address they read (R141). -/
theorem State.Raises.pop_out_of_range (h : s.Raises i r) (hi : (∃ a, i = .pop a) ∨ i = .ret) :
    ¬(i.wellFormed = true ∧ s.sp < 256) := by
  rintro ⟨hwf, hsp⟩
  cases h with
  | registerA hA hge =>
    rcases hi with ⟨a, rfl⟩ | rfl <;> cases hA
    exact Nat.not_lt.2 hge ((wellFormed_pop _).1 hwf)
  | registerB hB => rcases hB with rfl | rfl <;> simp at hi
  | push hP => rcases hP with rfl | rfl <;> simp at hi
  | pop _ hge | ret hge => omega

/-- A register that is not POP's operand is not in the row of registers that POP and RET write (R13). -/
theorem ne_of_mem_regsWritten_pop (hi : (∃ a, i = .pop a) ∨ i = .ret) {k : Fin 8}
    (hk : i ≠ .pop (BitVec.ofNat 8 k.val)) : ∀ w ∈ regsWritten i, w.toNat ≠ k.val := by
  rintro w hw e
  rcases hi with ⟨a, rfl⟩ | rfl
  · obtain rfl := List.mem_singleton.1 hw
    exact hk (by rw [← e, BitVec.ofNat_toNat, BitVec.setWidth_eq])
  · cases hw

/-! ### The statements on the stack -/

/-- Settles O12: PUSH checks its register, then the address, and completes. -/
theorem pushStoresBelowTheStackPointer : Obligations.PushStoresBelowTheStackPointer := fun _ s =>
  ⟨rfl, fun ha h1 h2 => exec_push s ha ⟨h1, h2⟩, exec_of_regA_error rfl,
    fun ha hsp => (State.Raises.push (.inl rfl) ha (by omega)).exec_eq⟩

/-- Settles O13: POP checks its register, then the address, and completes. -/
theorem popLoadsTheCellAtTheStackPointer : Obligations.PopLoadsTheCellAtTheStackPointer := fun _ s =>
  ⟨rfl, exec_pop s, exec_of_regA_error rfl, fun ha hsp => (State.Raises.pop ha hsp).exec_eq⟩

/-- Settles O17: a completed form stores at `pushAddr` alone, and one out of range raises and stores nothing. -/
theorem pushCallFrame : Obligations.PushCallFrame := by
  intro i a s t hi h
  rcases exec_inv h with hc | ⟨r, hr, rfl⟩
  · obtain ⟨hok, v, pc, rfl⟩ := hc.eq_store hi
    refine ⟨rfl, rfl, fun addr haddr k hk => ?_, fun _ => ⟨Nat.sub_add_cancel hok.2.1, rfl, rfl⟩, absurd hok⟩
    rw [pushAddr_eq] at haddr
    exact Memory.read_write_other _ _ (by omega)
  · exact ⟨rfl, rfl, fun _ _ _ _ => rfl, fun hok => absurd hok (hr.store_out_of_range hi),
      fun _ => ⟨rfl, rfl, rfl⟩⟩

/-- Settles O18: POP's destination is the one register written, and a form out of range raises. -/
theorem popRetFrame : Obligations.PopRetFrame := by
  intro i s t hi h
  have hregs (k : Fin 8) (hk : i ≠ .pop (BitVec.ofNat 8 k.val)) : t.regs[k] = s.regs[k] :=
    exec_regs_frame h k (ne_of_mem_regsWritten_pop hi hk)
  rcases exec_inv h with hc | ⟨r, hr, rfl⟩
  · have hwf := hc.wellFormed
    obtain ⟨hsp, regs, pc, rfl⟩ := hc.eq_pop hi
    exact ⟨fun _ => rfl, rfl, hregs, fun _ => ⟨rfl, rfl, rfl⟩, absurd ⟨hwf, hsp⟩⟩
  · exact ⟨fun _ => rfl, rfl, hregs, fun hok => absurd hok (hr.pop_out_of_range hi),
      fun _ => ⟨rfl, rfl, rfl⟩⟩

/-- Settles O44: each POP meets the cell of its PUSH, which a second PUSH, one cell lower, leaves alone. -/
theorem popUndoesPush : Obligations.PopUndoesPush := by
  refine ⟨fun a s ha h1 h2 => ?same, fun a b s u ha hb h1 h2 => ?later,
    fun a b c d s ha hb hc hd h1 h2 => ?reverse⟩
  case same =>
    exact ⟨_, _, exec_push s ha ⟨h1, h2⟩, Nat.sub_add_cancel h1, exec_pop_of_pushed ha ha ⟨h1, h2⟩ rfl rfl,
      (Nat.sub_add_cancel h1).symm, rfl, Vector.set_getElem_self ha⟩
  case later =>
    exact ⟨_, exec_push s ha ⟨h1, h2⟩, fun hu hcell =>
      ⟨_, exec_pop_of_pushed ha hb ⟨h1, h2⟩ hu hcell, Vector.getElem_set_self hb, rfl⟩⟩
  case reverse =>
    have hsp : 1 ≤ s.sp ∧ s.sp ≤ 256 := by omega
    have hsp' : 1 ≤ (s.afterPush ha).sp ∧ (s.afterPush ha).sp ≤ 256 := by rw [State.afterPush_sp]; omega
    have hcell : ((s.afterPush ha).afterPush hb).mem.read (s.sp - 1) =
        (s.afterPush ha).mem.read (s.sp - 1) := by
      rw [State.afterPush_read _ hb hsp'.1, if_neg (by rw [State.afterPush_sp]; omega)]
    exact ⟨_, _, _, _, exec_push s ha hsp, exec_push _ hb hsp', exec_pop_of_pushed hb hc hsp' rfl rfl,
      exec_pop_of_pushed ha hd hsp rfl hcell, Vector.getElem_set_self hc, Vector.getElem_set_self hd, rfl⟩

end Sys2Proof.Machine

/-! SUPPORT. The subroutine call (45_subroutine.md): what CALL and RET complete with (R125, R126), and that a
RET goes back behind its CALL (R127). -/

namespace Sys2Proof.Machine

variable {a : Byte} {s u : State}

/-! ### CALL and RET with every check passed -/

/-- The state after a CALL whose checks pass; `exec_call` ties it to `exec`. -/
def State.afterCall (s : State) (ha : a.toNat < 8) : State :=
  { s with mem := s.mem.write (s.sp - 1) (BitVec.ofNat 8 (s.pc + 2)), sp := s.sp - 1,
           pc := s.regs[a.toNat].toNat }

theorem State.afterCall_sp (s : State) (ha : a.toNat < 8) : (s.afterCall ha).sp = s.sp - 1 := rfl

theorem State.afterCall_read (s : State) (ha : a.toNat < 8) (hsp : 1 ≤ s.sp) (k : Nat) :
    (s.afterCall ha).mem.read k = if k + 1 = s.sp then BitVec.ofNat 8 (s.pc + 2) else s.mem.read k :=
  read_of_store rfl hsp k

theorem exec_call (s : State) (ha : a.toNat < 8) (hsp : 1 ≤ s.sp ∧ s.sp ≤ 256) (hpc : s.pc + 2 < 256) :
    exec (.call a) s = .next (s.afterCall ha) :=
  (State.Completes.call ha hsp hpc).exec_eq

theorem exec_ret (s : State) (hsp : s.sp < 256) :
    exec .ret s = .next { s with sp := s.sp + 1, pc := (s.mem.read s.sp).toNat } :=
  (State.Completes.ret hsp).exec_eq

/-- Once the register and the push address are in range, CALL faults by name where `pc + 2` is no byte (log 14). -/
theorem exec_call_of_returnAddress_not_byte (s : State) (ha : a.toNat < 8) (hsp : 1 ≤ s.sp ∧ s.sp ≤ 256)
    (hpc : 256 ≤ s.pc + 2) : exec (.call a) s = .fault .returnAddressNotAByte := by
  rw [exec, execCall, readReg_ok _ ha, orRaise_ok, pushAddr_ok _ hsp, orRaise_ok, returnAddress_none _ hpc]

/-- The byte CALL stores is `pc + 2` itself, not its remainder: no cycle wraps it (R125). -/
theorem toNat_returnAddress (hpc : s.pc + 2 < 256) : (BitVec.ofNat 8 (s.pc + 2)).toNat = s.pc + 2 :=
  (BitVec.toNat_ofNat _ _).trans (Nat.mod_eq_of_lt hpc)

/-- A RET with `sp` and the return cell as the CALL left them goes behind the CALL and restores `sp` (R127). -/
theorem exec_ret_of_called (ha : a.toNat < 8) (hsp : 1 ≤ s.sp ∧ s.sp ≤ 256) (hpc : s.pc + 2 < 256)
    (hu : u.sp = (s.afterCall ha).sp)
    (hcell : u.mem.read (s.sp - 1) = (s.afterCall ha).mem.read (s.sp - 1)) :
    exec .ret u = .next { u with sp := s.sp, pc := s.pc + 2 } := by
  rw [State.afterCall_sp] at hu
  rw [s.afterCall_read ha hsp.1, if_pos (by omega), ← hu] at hcell
  rw [exec_ret u (by omega), hcell, toNat_returnAddress hpc, show u.sp + 1 = s.sp by omega]

/-! ### The statements on the subroutine call -/

/-- Settles O14: CALL checks its register, then the push address, then the return address, and completes. -/
theorem callPushesTheReturnAddressAndJumps : Obligations.CallPushesTheReturnAddressAndJumps := fun _ s =>
  ⟨rfl,
    fun ha h1 h2 hp =>
      have hpc : s.pc + 2 < 256 := Nat.lt_succ_of_le hp
      ⟨_, toNat_returnAddress hpc, exec_call s ha ⟨h1, h2⟩ hpc⟩,
    exec_of_regA_error rfl,
    fun ha hsp => (State.Raises.push (.inr rfl) ha (by omega)).exec_eq,
    fun ha h1 h2 hp => exec_call_of_returnAddress_not_byte s ha ⟨h1, h2⟩ hp⟩

/-- Settles O15: RET checks the address it reads, and completes. -/
theorem retJumpsToThePoppedByte : Obligations.RetJumpsToThePoppedByte := fun s =>
  ⟨rfl, exec_ret s, fun hsp => (State.Raises.ret hsp).exec_eq⟩

/-- Settles O45: the RET meets the cell in which the CALL stored `p + 2`, one below the restored `sp`. -/
theorem retReturnsBehindTheCall : Obligations.RetReturnsBehindTheCall := fun _ s _ ha h1 h2 hp =>
  have hpc : s.pc + 2 < 256 := Nat.lt_succ_of_le hp
  ⟨_, exec_call s ha ⟨h1, h2⟩ hpc, rfl, rfl, fun hu hcell =>
    ⟨_, exec_ret_of_called ha ⟨h1, h2⟩ hpc hu hcell, rfl, rfl, rfl⟩⟩

end Sys2Proof.Machine

/-! SUPPORT. Exceptions (60_exceptions.md): an error changes the status and the report alone and names the `pc`
of its cycle (R146, R151), and each row of the error table is what the fetch or a handler's check raises (R141,
R142, R147). -/

namespace Sys2Proof

/-- The seven opcodes with a register operand A decode, and their operand A is the byte behind them (R54, R55). -/
theorem decode_of_opcode_regA {ir : Byte} (a b : Byte)
    (h : ir ∈ ([0x82, 0x47, 0xA2, 0xA0, 0x45, 0x46, 0x50] : List Byte)) :
    ∃ i, decode ir a b = .ok i ∧ i.regA = some a := by
  simp only [List.mem_cons, List.not_mem_nil, or_false] at h
  rcases h with rfl | rfl | rfl | rfl | rfl | rfl | rfl
  · exact ⟨_, decode_ldi a b, rfl⟩
  · exact ⟨_, decode_prn a b, rfl⟩
  · exact ⟨_, decode_mul a b, rfl⟩
  · exact ⟨_, decode_add a b, rfl⟩
  · exact ⟨_, decode_push a b, rfl⟩
  · exact ⟨_, decode_pop a b, rfl⟩
  · exact ⟨_, decode_call a b, rfl⟩

theorem decode_of_opcode_alu {ir : Byte} (a b : Byte) (h : ir ∈ ([0xA2, 0xA0] : List Byte)) :
    ∃ i, decode ir a b = .ok i ∧ (i = .mul a b ∨ i = .add a b) := by
  simp only [List.mem_cons, List.not_mem_nil, or_false] at h
  rcases h with rfl | rfl
  · exact ⟨_, decode_mul a b, .inl rfl⟩
  · exact ⟨_, decode_add a b, .inr rfl⟩

theorem decode_of_opcode_store {ir : Byte} (a b : Byte) (h : ir ∈ ([0x45, 0x50] : List Byte)) :
    ∃ i, decode ir a b = .ok i ∧ (i = .push a ∨ i = .call a) := by
  simp only [List.mem_cons, List.not_mem_nil, or_false] at h
  rcases h with rfl | rfl
  · exact ⟨_, decode_push a b, .inl rfl⟩
  · exact ⟨_, decode_call a b, .inr rfl⟩

end Sys2Proof

namespace Sys2Proof.Machine

variable {i : Instr} {s t : State} {r : ErrorReport}

/-! ### What an error changes -/

/-- A handler's report names the `pc` of the failing instruction (R146). -/
theorem State.Raises.pc_eq (h : s.Raises i r) : r.pc = s.pc := by cases h <;> rfl

/-- A step that leads to Faulted records one report, with the old `pc`, and changes nothing else (R151). -/
theorem eq_faultedWith_of_step_faulted (hs : s.status = .running) (h : step s = .next t)
    (ht : t.status = .faulted) : ∃ r, r.pc = s.pc ∧ t = s.faultedWith r := by
  rcases step_running_cases hs with ⟨-, g⟩ | ⟨-, -, g⟩ | ⟨-, -, g⟩ | ⟨-, i, -, g⟩ <;> rw [g] at h
  · exact ⟨_, rfl, (Host.Outcome.next.inj h).symm⟩
  · exact ⟨_, rfl, (Host.Outcome.next.inj h).symm⟩
  · exact ⟨_, rfl, (Host.Outcome.next.inj h).symm⟩
  · rcases exec_inv h with hc | ⟨r, hr, rfl⟩
    · exact absurd ht (hc.not_faulted hs)
    · exact ⟨r, hr.pc_eq, rfl⟩

theorem step_of_illegal_opcode (hs : s.status = .running) (hp : s.pc ≤ 253) (hn : s.irByte ∉ opcodeBytes) :
    step s = .next (s.faultedWith (.illegal s.pc s.irByte)) :=
  step_of_fetchInstr_error hs (fetchInstr_illegal (by omega) hn)

/-! ### The rows of the error table -/

/-- A decoded instruction whose check fails ends the step with that check's report. -/
theorem step_of_raises (hs : s.status = .running) (hp : s.pc ≤ 253)
    (hd : decode s.irByte s.aByte s.bByte = .ok i) (hr : s.Raises i r) :
    step s = .next (s.faultedWith r) := by
  rw [step_of_fetchInstr_ok hs (fetchInstr_ok (by omega) hd), hr.exec_eq]

/-- Every row of the error table is what the step raises (R141, R142, R147). -/
theorem State.Reports.step_eq (h : s.Reports r) (hs : s.status = .running) :
    step s = .next (s.faultedWith r) := by
  cases h with
  | fetchOpcode hp =>
    rw [step_of_fetch_error hs (fetch_opcode hp.ge), State.raise_outOfRange, hp]; rfl
  | fetchOperandA hp =>
    rw [step_of_fetch_error hs (fetch_operandA hp), State.raise_outOfRange, hp]
  | fetchOperandB hp =>
    rw [step_of_fetch_error hs (fetch_operandB hp), State.raise_outOfRange, hp]
  | illegalOpcode hp hn => exact step_of_illegal_opcode hs hp hn
  | registerA hp hir ha =>
    obtain ⟨i, hd, hi⟩ := decode_of_opcode_regA s.aByte s.bByte hir
    exact decode_ok_opcode hd ▸ step_of_raises hs hp hd (.registerA hi ha)
  | registerB hp hir ha hb =>
    obtain ⟨i, hd, hi⟩ := decode_of_opcode_alu s.aByte s.bByte hir
    exact decode_ok_opcode hd ▸ step_of_raises hs hp hd (.registerB hi ha hb)
  | pushAtZero hp hir ha h0 =>
    obtain ⟨i, hd, hi⟩ := decode_of_opcode_store s.aByte s.bByte hir
    rw [step_of_raises hs hp hd (.push hi ha (by omega)), decode_ok_opcode hd, h0]; rfl
  | popAtTop hp hir ha h0 =>
    have hd : decode s.irByte s.aByte s.bByte = .ok (.pop s.aByte) := hir ▸ decode_pop _ _
    rw [step_of_raises hs hp hd (.pop ha h0.ge), hir, h0]; rfl
  | retAtTop hp hir h0 =>
    have hd : decode s.irByte s.aByte s.bByte = .ok .ret := hir ▸ decode_ret _ _
    rw [step_of_raises hs hp hd (.ret h0.ge), hir, h0]; rfl

/-! ### The statements on exceptions -/

/-- Settles O28: the fetch errors, the rejected opcode and the handlers all report the `pc` of the cycle. -/
theorem errorsArePrecise : Obligations.ErrorsArePrecise :=
  fun _ _ => eq_faultedWith_of_step_faulted

/-- Settles O30: the dispatch rejects the byte, and a Faulted machine stays as it is. -/
theorem illegalOpcodeStopsTheRun : Obligations.IllegalOpcodeStopsTheRun :=
  fun _ hs hp hn => ⟨_, _, step_of_illegal_opcode hs hp hn, rfl, rfl, rfl, rfl, rfl, rfl, rfl,
    run_not_running (by rw [State.faultedWith_status]; decide)⟩

/-- Settles O32: each row is raised by the step, and each error of a step is a row. -/
theorem errorTableIsComplete : Obligations.ErrorTableIsComplete := by
  refine fun s hs hp hsp => ⟨fun r hr => hr.step_eq hs, fun t h ht => ?_⟩
  rcases step_inv h with ⟨hn, -⟩ | ⟨-, r, hr, e⟩ | ⟨-, -, i, -, hc⟩
  · exact absurd hs hn
  · exact ⟨r, hr hp hsp, e⟩
  · exact absurd ht (hc.not_faulted hs)

end Sys2Proof.Machine

/-! SUPPORT. Reset, load and start (70_reset_and_hazards.md): what a placed image reads as (R174), that the
transactions keep the invariant (R170, R174, R177), and that an instruction placed where the next cycle fetches
is the one it runs. -/

namespace Sys2Proof

/-- A table word decodes to an instruction exactly when its first three bytes do (log 20). -/
theorem decodeTableWord_eq_some_iff {nbits w : Nat} {i : Instr} :
    decodeTableWord nbits w = some i ↔
      decode (tableByte nbits w 0) (tableByte nbits w 1) (tableByte nbits w 2) = .ok i := by
  unfold decodeTableWord
  split <;> simp [*]

end Sys2Proof

namespace Sys2Proof.Machine

variable {i : Instr} {s : State} {bytes : List Byte}

/-! ### What a placed image reads as -/

theorem Memory.read_place_getElem (m : Memory) (a : Nat) {k : Nat} (hk : k < bytes.length) :
    (m.place a bytes).read (a + k) = bytes[k] := by
  rw [Memory.read_place, if_pos (Nat.le_add_right a k), Nat.add_sub_cancel_left,
    List.getElem?_eq_getElem hk, Option.getD_some]

theorem Memory.read_place_outside (m : Memory) {a b : Nat} (hb : b < a ∨ a + bytes.length ≤ b) :
    (m.place a bytes).read b = m.read b := by
  rw [Memory.read_place]
  rcases hb with hb | hb
  · rw [if_neg (Nat.not_le.2 hb)]
  · rw [if_pos (by omega), List.getElem?_eq_none (by omega), Option.getD_none]

/-! ### An instruction placed where the next cycle fetches -/

/-- All three bytes can be fetched from where an instruction is placed, whatever `pc` was (log 2). -/
theorem State.fetchBase_add_two_lt (s : State) : s.fetchBase + 2 < 256 := by
  unfold State.fetchBase
  split
  · assumption
  · decide

theorem State.fetchBase_eq_pc (h : s.pc + 2 < 256) : s.fetchBase = s.pc := if_pos h

/-- A Running machine runs the instruction whose encoding begins the image placed at its `pc`. -/
theorem step_of_place {m : Memory} (hs : s.status = .running) (hp : s.pc + 2 < 256)
    (hm : s.mem = m.place s.pc bytes) (hi : encode i <+: bytes) : step s = exec i s := by
  refine instructionStoredAtPcIsTheOneThatRuns s i hs hp fun k hk => ?_
  rw [hm, Memory.read_place_getElem m s.pc (Nat.lt_of_lt_of_le hk hi.length_le), hi.getElem hk]

/-! ### The transactions and the invariant -/

theorem transact_start (s : State) : s.transact .start = s.start := rfl

/-- An Idle machine has no report, so a canonical memory in range and a status other than Faulted keep the
invariant (R18). -/
theorem State.Inv.update_idle (h : s.Inv) (hs : s.status = .idle) {m : Memory} {q : Status} (hwf : m.wf)
    (hr : m.inRange) (hq : q ≠ .faulted) : State.Inv { s with mem := m, status := q } where
  memCanonical := hwf
  memInRange := hr
  pcBound := h.pcBound
  spBound := h.spBound
  noReport := fun _ => h.noReport (by rw [hs]; decide)
  report := fun e => absurd e hq

theorem State.Inv.load (h : s.Inv) (bytes : List Byte) : (s.load bytes).1.Inv := by
  by_cases hs : s.status = .idle
  · rcases Nat.lt_or_ge 256 bytes.length with hk | hk
    · rwa [load_too_long hs hk]
    · rw [load_idle hs hk]
      exact h.update_idle hs (Memory.wf_place h.memCanonical 0 bytes)
        (Memory.inRange_place h.memInRange (by rwa [Nat.zero_add])) (by rw [hs]; decide)
  · rwa [load_not_idle bytes hs]

theorem State.Inv.start (h : s.Inv) : s.start.1.Inv := by
  by_cases hs : s.status = .idle
  · rw [start_idle hs]
    exact h.update_idle hs h.memCanonical h.memInRange (by decide)
  · rwa [start_not_idle hs]

/-! ### The statements on reset, load and start -/

/-- Settles O6: the placed bytes decode, and the encoding of what they decode to begins them. -/
theorem placedTableWordRunsNext : Obligations.PlacedTableWordRunsNext := by
  intro s nbits w i hw
  have hi := decode_ok_iff_encode.1 (decodeTableWord_eq_some_iff.1 hw)
  exact ⟨step_of_place rfl s.fetchBase_add_two_lt rfl hi, rfl, rfl, rfl, rfl, State.fetchBase_eq_pc,
    fun _ hb => s.mem.read_place_outside hb⟩

/-- Settles O38: one lemma per transaction. -/
theorem transactionsKeepTheInvariant : Obligations.TransactionsKeepTheInvariant
  | _, .construct, _ => resetMeetsTheInvariant
  | _, .load bytes, h => h.load bytes
  | _, .start, h => h.start

/-- Settles O40: the image is placed at address 0, which no cell lies below. -/
theorem loadPlacesTheImageFromZero : Obligations.LoadPlacesTheImageFromZero := by
  refine fun s bytes hs => ⟨fun hk => ⟨_, load_idle hs hk, fun k hlt => ?_, fun k hle => ?_⟩, load_too_long hs⟩
  · rw [← s.mem.read_place_getElem 0 hlt, Nat.zero_add]
  · exact s.mem.read_place_outside (.inr (by omega))

/-- Settles O41: a construction looks at no status; load and start look at nothing but the status first. -/
theorem hostActsOnlyOnAnIdleMachine : Obligations.HostActsOnlyOnAnIdleMachine :=
  ⟨fun _ => start_idle, fun _ hs => ⟨start_not_idle hs, fun bytes => load_not_idle bytes hs⟩, fun _ => rfl⟩

/-- Settles O42: the reset `pc` is the address the image is placed at, and the encoding begins the image. -/
theorem firstCycleRunsTheFirstLoadedInstruction : Obligations.FirstCycleRunsTheFirstLoadedInstruction :=
  fun _ rest _ hk =>
    ⟨_, _, load_idle (s := State.reset) rfl hk, (transact_start _).trans (start_idle rfl), rfl, rfl,
      step_of_place rfl (by decide : State.reset.pc + 2 < 256) rfl (List.prefix_append _ rest)⟩

end Sys2Proof.Machine
